-- ==== Sys2Proof/Word.lean ====
section
/-! DEFINITION. Word.lean: the one bit-vector word the block has, the byte of a lane and of the command word. -/

namespace Sys2Proof

/-- A byte: one lane of a byte quantity (R29, R40), and the command word CMD (R61). -/
abbrev Byte := BitVec 8

end Sys2Proof
end

