-- ==== Sys2Proof/WellFormed.lean ====
section
/-! DEFINITION. WellFormed.lean: which parameter values the spec admits (R24, R27); `Config` (Config.lean) carries the proof. An
instruction needs no such check: the enumerations are closed (R63), so every term of `Instr` is well formed; which command WORDS are
legal is `legalWord` in Decode.lean, and which requests the ports can carry is `Request.Presentable` in Safety.lean. -/

namespace Sys2Proof

/-- NLEAP, the number of table words (R5, R23). -/
def Config.nleap : Nat := 16

/-- R24 (b): LEAP[i] ≤ LEAP[i+1]. -/
def leapAscending : List Nat → Bool
  | a :: b :: rest => decide (a ≤ b) && leapAscending (b :: rest)
  | _ => true

/-- R24 (d), second half: LEAP[i+1] − LEAP[i] ≥ 2. -/
def leapGapped : List Nat → Bool
  | a :: b :: rest => decide (a + 2 ≤ b) && leapGapped (b :: rest)
  | _ => true

/-- R24 (d), first half: LEAP[0] ≥ 1. -/
def leapStartsLate : List Nat → Bool
  | a :: _ => decide (1 ≤ a)
  | [] => true

/-- R24 (c): every entry is below 2^ROMW. -/
def leapInRom (romw : Nat) (leap : List Nat) : Bool :=
  leap.all fun l => decide (l < 2 ^ romw)

/-- The constraints every admissible table satisfies: R24 (a) to (d), in that order. -/
abbrev LeapTableOk (romw : Nat) (leap : List Nat) : Prop :=
  leap.length = Config.nleap ∧ leapAscending leap = true ∧ leapInRom romw leap = true ∧
    leapStartsLate leap = true ∧ leapGapped leap = true

/-- The parameter values the spec admits: VALW ≥ 33 (R6, R27) and a table that satisfies R24. -/
abbrev ConfigOk (valw romw : Nat) (leap : List Nat) : Prop :=
  33 ≤ valw ∧ LeapTableOk romw leap

end Sys2Proof
end

