-- ==== Sys2Proof/Config.lean ====
section
/-! DEFINITION. Config.lean: what is fixed when the block is built, that is the open parameters VALW, TIMEW, ROMW and
LEAP (R6, R23 to R28) with the proof that R24 asks for, the defaults the spec takes, and the wired constants (R5, R30). -/

namespace Sys2Proof

/-- The parameters of the block (R6), with the proof that the spec admits them: R24 asks a model to take LEAP together with a
proof of (a) to (d), so a configuration that breaks R24 or R27 does not exist (U14). Every claim ranges over all that do. Table words
are counts, so they are numbers. -/
structure Config where
  /-- VALW, the width in bits of the signed integer value ports (R27). -/
  valw : Nat
  /-- TIMEW, the width in bits of the signed half-second time ports (R28). -/
  timew : Nat
  /-- ROMW, the width in bits of one table word (R23). -/
  romw : Nat
  /-- LEAP[0..15], the leap-second table: GPS-epoch seconds, earliest first (R23). -/
  leap : List Nat
  /-- R24 (a) to (d) hold of the table, and VALW ≥ 33 (R27). -/
  ok : ConfigOk valw romw leap
  deriving DecidableEq, Repr

/-- Building a block from parameter values: a configuration the spec does not admit is refused (U14; log entry 10). -/
def Config.configure (valw timew romw : Nat) (leap : List Nat) : Option Config :=
  if h : ConfigOk valw romw leap then some ⟨valw, timew, romw, leap, h⟩ else none

/-- GPS_UNIX_OFFSET in seconds: a constant wired into the GTU, no table entry and no parameter (R5, R30). -/
def Config.gpsUnixOffset : Int := 315964800

/-- The default of the sixteen table values (R25). DESIGN CHOICE, log entry 1: the source lists no values, the spec
supplies these from general knowledge. -/
def Config.defaultLeap : List Nat :=
  [46828800, 78364801, 109900802, 173059203, 252028804, 315187205, 346723206, 393984007,
   425520008, 457056009, 504489610, 551750411, 599184012, 820108813, 914803214, 1025136015]

/-- The default parameters (R6): VALW = TIMEW = 64, ROMW = 32, the table of R25. DESIGN CHOICE, log entries 1 and 2. -/
def Config.default : Config :=
  { valw := 64, timew := 64, romw := 32, leap := Config.defaultLeap, ok := by decide }

end Sys2Proof
end

