-- ==== Sys2Proof/Machine/State.lean ====
section
/-! DEFINITION. State.lean: the records of one transaction (R26), the reasons a step can stop, and the state: the
configured constants, the request the host has presented, and the response of the step just taken. Plain data. -/

namespace Sys2Proof.Machine

/-- The four byte lanes B[0..3] of a request (R29, R40). -/
structure Lanes where
  b0 : Byte
  b1 : Byte
  b2 : Byte
  b3 : Byte
  deriving DecidableEq, Repr

/-- The request record (R26). VAL and TIME hold an integer whose low VALW or TIMEW bits are what the port carries; a
command reads them through `sext` (R69, R70; log entry 4). -/
structure Request where
  /-- CMD, the command word (R61). -/
  cmd : Byte
  /-- LEN, the number of bytes presented; 5, 6 and 7 mean longer than any operation accepts (R29). -/
  len : BitVec 3
  /-- B[0..3] (R29). -/
  lanes : Lanes
  /-- VAL, the signed integer value port (R27). -/
  val : Int
  /-- TIME, a count of half-seconds (R28). -/
  time : Int
  deriving DecidableEq, Repr

/-- The four error statuses (R150, R151, R153). -/
inductive ErrorStatus where
  /-- STATUS 1: the byte quantity does not match the width (R155). -/
  | invalidLength
  /-- STATUS 2: the integer is outside the encode range of the width (R156). -/
  | outOfRange
  /-- STATUS 3: the byte order is not valid at the width (R157). -/
  | unsupportedEndianness
  /-- STATUS 4: CMD selects no command (R151). -/
  | illegalCommand
  deriving DecidableEq, Repr

/-- The response record (R26, R71, R152): a status and, on OK, the one result of the command's class. A field that is not
valid holds no value, so it has no place here (log entry 7). -/
inductive Response where
  /-- OK from a decode command: RVAL (R69). -/
  | value (rval : Int)
  /-- OK from an encode command: RB[0..RLEN−1]; RLEN is the length (R71). -/
  | bytes (rb : List Byte)
  /-- OK from a time command: RTIME in half-seconds (R70). -/
  | time (rtime : Int)
  /-- An error: a status and no result (R152). -/
  | error (e : ErrorStatus)
  deriving DecidableEq, Repr

/-- Faults that stop the machine: there are none. Every error of the spec is a response of a completed transaction
(R152, R162), and nothing in the block is stuck (93_implementation_defined.md, part 1). -/
inductive Fault where
  deriving DecidableEq, Repr

/-- Reasons the model answers with no next state. -/
inductive Refusal where
  /-- Raised by exec's arm of an instruction that has no meaning yet; no arm raises it now. Safe. -/
  | notModelled (mnemonic : String)
  /-- Raised by GPS2UNIX and UNIX2GPS for a request whose result does not fit TIMEW bits: the host must not present it and
  the model refuses it, with no wrap and no saturation (R139, U4; log entry 5). Safe. -/
  | timeOutsidePort
  /-- Raised by every meaning when no request is pending, so that there are no operands (R26; log entry 6). `step` never
  runs a command without a request. Safe. -/
  | noRequest
  deriving DecidableEq, Repr

/-- The state. The block itself has no mutable state (R20): `cfg` never changes; `req` and `rsp` hold the records of the
transaction in hand (R26), which are not kept after it (log entry 3). -/
structure State where
  /-- The configured constants (R6, R23, R32). -/
  cfg : Config
  /-- The request the host has presented and the block has not yet served (R26); none when nothing is pending. -/
  req : Option Request
  /-- The response the last step returned (R26); none when the last step served no request. -/
  rsp : Option Response
  deriving DecidableEq, Repr

/-- The machine right after reset: the configured constants, no pending command and no pending error (R32, R180). -/
def State.reset : State :=
  { cfg := Config.default, req := none, rsp := none }

end Sys2Proof.Machine
end

