-- ==== Sys2Proof/Machine/Ops.lean ====
section
/-! DEFINITION. Ops.lean: what a transaction does to the state (present, respond, raise an error, idle) and the integer
ports. The block has no memory and no registers, so there is no other operation over state (R21, R22, R40). -/

namespace Sys2Proof.Machine

/-- One step's answer. -/
abbrev Answer := Host.Outcome State Fault Refusal

/-- `sext_N(v)`: the integer in −2^(N−1)..2^(N−1)−1 congruent to v modulo 2^N (00_scope.md section 5). -/
def sext (n : Nat) (v : Int) : Int :=
  if v % 2 ^ n < 2 ^ (n - 1) then v % 2 ^ n else v % 2 ^ n - 2 ^ n

/-- A signed two's-complement port of n bits can carry the integer v: −2^(n−1) ≤ v < 2^(n−1) (R27, R28). -/
def fitsSigned (n : Nat) (v : Int) : Bool :=
  decide (-(2 ^ (n - 1)) ≤ v) && decide (v < 2 ^ (n - 1))

/-- The host presents a request (R26, R184). -/
def State.present (s : State) (rq : Request) : State :=
  { s with req := some rq }

/-- The block returns a response: the transaction is over and its request is not kept (R26). -/
def State.respond (s : State) (r : Response) : State :=
  { s with req := none, rsp := some r }

/-- A step with no request pending: the block has nothing to do (R21), and the response of an earlier transaction is not
kept (R26; log entry 3). -/
def State.idle (s : State) : State :=
  { s with rsp := none }

/-- `return OK(...)`: end the command with its result (00_scope.md section 5). -/
def complete (s : State) (r : Response) : Answer :=
  .next (s.respond r)

/-- `raise <Error>`: the one way an error is taken. The response carries the status and no result; nothing is saved, no mode
changes and control goes nowhere (R152, R162), so there is nothing to return from (R163). -/
def raise (s : State) (e : ErrorStatus) : Answer :=
  .next (s.respond (.error e))

/-- Run a command on the pending request; without one there are no operands (log entry 6). -/
def onRequest (s : State) (run : Request → Answer) : Answer :=
  match s.req with
  | some rq => run rq
  | none => .refused .noRequest

/-- Deliver a time result on RTIME, or refuse the request when it does not fit the port (R70, R139, U4). -/
def completeTime (s : State) (t : Int) : Answer :=
  if fitsSigned s.cfg.timew t then complete s (.time t) else .refused .timeOutsidePort

end Sys2Proof.Machine
end

