-- ==== Sys2Proof/Syntax.lean ====
section
/-! DEFINITION. Syntax.lean: the eight commands of CONV-CMD version 1 (R62, R64), one constructor per row of the opcode
table, over the two closed enumerations of the spec (R5). -/

namespace Sys2Proof

/-- The four byte orders (R5, R41 to R46). -/
inductive Endianness where
  | bigEndian
  | midBigEndian
  | littleEndian
  | midLittleEndian
  deriving DecidableEq, Repr

/-- How the most significant bit of an assembled pattern is read (R5, R65, R91). -/
inductive Signedness where
  | signed
  | unsigned
  deriving DecidableEq, Repr

/-- A command with the parameters its word carries. The other operands (LEN, lanes, VAL, TIME) stand in the request (R26).
A command has an order or a signedness exactly where R66 lets its word carry one, so no term of this type is ill formed. -/
inductive Instr where
  /-- DEC8: decode one byte (R93). -/
  | dec8 (sgn : Signedness)
  /-- ENC8: encode one byte (R113). -/
  | enc8
  /-- DEC16: decode two bytes (R94). -/
  | dec16 (order : Endianness) (sgn : Signedness)
  /-- ENC16: encode two bytes (R114). -/
  | enc16 (order : Endianness)
  /-- DEC32: decode four bytes (R95). -/
  | dec32 (order : Endianness) (sgn : Signedness)
  /-- ENC32: encode four bytes (R115). -/
  | enc32 (order : Endianness)
  /-- GPS2UNIX: GPS seconds to Unix seconds (R135). -/
  | gps2unix
  /-- UNIX2GPS: Unix seconds to GPS seconds (R136). -/
  | unix2gps
  deriving DecidableEq, Repr

end Sys2Proof
end

