-- ==== Sys2Proof/Machine/Operands.lean ====
section
/-! DEFINITION. Operands.lean: reading the operands of a request (R68 to R70), the endianness multiplexer in both
directions (R41 to R46, R90, R112), the sign-bit interpreter (R91), the encode range and the octets (R110, R111). -/

namespace Sys2Proof.Machine

/-- The integer operand of an encode command: `sext_VALW(req.VAL)` (R69). -/
def valOperand (s : State) (rq : Request) : Int :=
  sext s.cfg.valw rq.val

/-- The time operand of a time command in half-seconds: `sext_TIMEW(req.TIME)` (R70). -/
def timeOperand (s : State) (rq : Request) : Int :=
  sext s.cfg.timew rq.time

/-- Lane k of the request's byte quantity, B[k] (R29). -/
def Lanes.lane (l : Lanes) : Fin 4 → Byte
  | 0 => l.b0
  | 1 => l.b1
  | 2 => l.b2
  | 3 => l.b3

/-- π_END of R45 counted from 0: the lane that supplies octet j + 1 of a four-byte quantity. Each is its own inverse (R46). -/
def orderPerm : Endianness → Fin 4 → Fin 4
  | .bigEndian, j => j
  | .midBigEndian, j => match j with | 0 => 1 | 1 => 0 | 2 => 3 | 3 => 2
  | .littleEndian, j => match j with | 0 => 3 | 1 => 2 | 2 => 1 | 3 => 0
  | .midLittleEndian, j => match j with | 0 => 2 | 1 => 3 | 2 => 0 | 3 => 1

/-- Assemble_1 (R90). -/
def assemble1 (l : Lanes) : Nat :=
  l.b0.toNat

/-- `msb << 8 | lsb` (R90, R94). -/
def joinPair (msb lsb : Byte) : Nat :=
  msb.toNat <<< 8 ||| lsb.toNat

/-- Assemble_2 (R90): not defined for the Mid orders (R44). -/
def assemble2 (l : Lanes) : Endianness → Option Nat
  | .bigEndian => some (joinPair l.b0 l.b1)
  | .littleEndian => some (joinPair l.b1 l.b0)
  | .midBigEndian => none
  | .midLittleEndian => none

/-- Assemble_4 (R90): b1 << 24 | b2 << 16 | b3 << 8 | b4 with b_j taken from the lane π gives it. -/
def assemble4 (l : Lanes) (order : Endianness) : Nat :=
  let b := fun j => (l.lane (orderPerm order j)).toNat
  b 0 <<< 24 ||| b 1 <<< 16 ||| b 2 <<< 8 ||| b 3

/-- SignInterp_W (R91): a pattern read as unsigned, or as two's complement by the source's own formula. -/
def signInterp (w u : Nat) : Signedness → Int
  | .unsigned => u
  | .signed => if u.testBit (w - 1) then -(((u ^^^ (2 ^ w - 1) : Nat) : Int) + 1) else u

/-- The encode range of width W: −2^(W−1) ≤ v ≤ 2^W − 1 (R110). -/
def inEncodeRange (w : Nat) (v : Int) : Bool :=
  decide (-(2 ^ (w - 1)) ≤ v) && decide (v ≤ 2 ^ w - 1)

/-- `(v >> k) AND 0xFF` on a possibly negative integer (R7, R111): a floor shift, then the residue modulo 256. -/
def octet (v : Int) (k : Nat) : Byte :=
  BitVec.ofInt 8 (v >>> k)

/-- Place_2 (R112): not defined for the Mid orders (R44). -/
def place2 (o1 o2 : Byte) : Endianness → Option (List Byte)
  | .bigEndian => some [o1, o2]
  | .littleEndian => some [o2, o1]
  | .midBigEndian => none
  | .midLittleEndian => none

/-- Place_4 (R112): RB[p − 1] is octet π(p). -/
def place4 (o1 o2 o3 o4 : Byte) (order : Endianness) : List Byte :=
  let o : Lanes := ⟨o1, o2, o3, o4⟩
  [o.lane (orderPerm order 0), o.lane (orderPerm order 1),
   o.lane (orderPerm order 2), o.lane (orderPerm order 3)]

end Sys2Proof.Machine
end

