-- ==== Sys2Proof/Machine/BinaryDecode.lean ====
section
/-! DEFINITION. BinaryDecode.lean: the decode commands DEC8, DEC16, DEC32 (40_binary_codec_decode.md). -/

namespace Sys2Proof.Machine

/-- DEC8 (R93). -/
def execDec8 (sgn : Signedness) (s : State) : Answer :=
  onRequest s fun rq =>
    if rq.len.toNat ≠ 1 then raise s .invalidLength
    else complete s (.value (signInterp 8 (assemble1 rq.lanes) sgn))

/-- DEC16 (R94): the length is checked before the byte order (R159). -/
def execDec16 (order : Endianness) (sgn : Signedness) (s : State) : Answer :=
  onRequest s fun rq =>
    if rq.len.toNat ≠ 2 then raise s .invalidLength
    else
      match assemble2 rq.lanes order with
      | none => raise s .unsupportedEndianness
      | some u => complete s (.value (signInterp 16 u sgn))

/-- DEC32 (R95). The source's diagnostic print is omitted (R168). -/
def execDec32 (order : Endianness) (sgn : Signedness) (s : State) : Answer :=
  onRequest s fun rq =>
    if rq.len.toNat ≠ 4 then raise s .invalidLength
    else complete s (.value (signInterp 32 (assemble4 rq.lanes order) sgn))

end Sys2Proof.Machine
end

