-- ==== Sys2Proof/Machine/BinaryEncode.lean ====
section
/-! DEFINITION. BinaryEncode.lean: the encode commands ENC8, ENC16, ENC32 (41_binary_codec_encode.md). -/

namespace Sys2Proof.Machine

/-- ENC8 (R113). -/
def execEnc8 (s : State) : Answer :=
  onRequest s fun rq =>
    let v := valOperand s rq
    if inEncodeRange 8 v then complete s (.bytes [octet v 0]) else raise s .outOfRange

/-- ENC16 (R114): the range is checked before the byte order (R159). -/
def execEnc16 (order : Endianness) (s : State) : Answer :=
  onRequest s fun rq =>
    let v := valOperand s rq
    if inEncodeRange 16 v then
      match place2 (octet v 8) (octet v 0) order with
      | none => raise s .unsupportedEndianness
      | some rb => complete s (.bytes rb)
    else raise s .outOfRange

/-- ENC32 (R115). -/
def execEnc32 (order : Endianness) (s : State) : Answer :=
  onRequest s fun rq =>
    let v := valOperand s rq
    if inEncodeRange 32 v then
      complete s (.bytes (place4 (octet v 24) (octet v 16) (octet v 8) (octet v 0) order))
    else raise s .outOfRange

end Sys2Proof.Machine
end

