-- ==== Sys2Proof/Machine/GpsTime.lean ====
section
/-! DEFINITION. GpsTime.lean: the GPS time unit: the three lookup functions over the leap-second table (R49, R132 to R134)
and the commands GPS2UNIX and UNIX2GPS (R135, R136), all in half-seconds. The two counting predicates differ on purpose
(R137). -/

namespace Sys2Proof.Machine

/-- CountG: how many entries satisfy Tg ≥ 2·LEAP[i] (R132). -/
def countG (leap : List Nat) (tg : Int) : Nat :=
  leap.countP fun (l : Nat) => decide (tg ≥ 2 * (l : Int))

/-- IsTab: Tg = 2·LEAP[i] for some i (R133). -/
def isTab (leap : List Nat) (tg : Int) : Bool :=
  leap.any fun (l : Nat) => decide (tg = 2 * (l : Int))

/-- CountU: how many entries satisfy P ≥ 2·(LEAP[i] − i), i the 0-based position (R134). P is not updated on the way. -/
def countU (leap : List Nat) (p : Int) : Nat :=
  leap.zipIdx.countP fun (e : Nat × Nat) => decide (p ≥ 2 * ((e.1 : Int) - (e.2 : Int)))

/-- The half-second value GPS2UNIX computes (R135): the count and the equality test both use the input. -/
def gpsToUnix (leap : List Nat) (tg : Int) : Int :=
  let tu := tg + 2 * Config.gpsUnixOffset - 2 * (countG leap tg : Int)
  if isTab leap tg then tu + 1 else tu

/-- The half-second value UNIX2GPS computes (R136): an odd operand loses its half second, downwards, and is a leap second. -/
def unixToGps (leap : List Nat) (tu : Int) : Int :=
  let leapHalf : Int := if tu % 2 = 1 then 1 else 0
  let p := tu - leapHalf - 2 * Config.gpsUnixOffset
  p + 2 * (countU leap p : Int) + 2 * leapHalf

/-- GPS2UNIX (R135). -/
def execGps2unix (s : State) : Answer :=
  onRequest s fun rq => completeTime s (gpsToUnix s.cfg.leap (timeOperand s rq))

/-- UNIX2GPS (R136). -/
def execUnix2gps (s : State) : Answer :=
  onRequest s fun rq => completeTime s (unixToGps s.cfg.leap (timeOperand s rq))

end Sys2Proof.Machine
end

