-- ==== Sys2Proof/Machine/Dispatch.lean ====
section
/-! DEFINITION. Dispatch.lean: exec, one arm per constructor of Instr, each a direct call of its meaning. -/

namespace Sys2Proof.Machine

-- The order is that of spec/opcode_table.json.
def exec (i : Instr) (s : State) : Host.Outcome State Fault Refusal :=
  match i with
  | .dec8 sgn => Sys2Proof.Machine.execDec8 sgn s
  | .enc8 => Sys2Proof.Machine.execEnc8 s
  | .dec16 order sgn => Sys2Proof.Machine.execDec16 order sgn s
  | .enc16 order => Sys2Proof.Machine.execEnc16 order s
  | .dec32 order sgn => Sys2Proof.Machine.execDec32 order sgn s
  | .enc32 order => Sys2Proof.Machine.execEnc32 order s
  | .gps2unix => Sys2Proof.Machine.execGps2unix s
  | .unix2gps => Sys2Proof.Machine.execUnix2gps s

end Sys2Proof.Machine
end

