-- ==== Sys2Proof/Decode.lean ====
section
/-! DEFINITION. Decode.lean: the command word CMD (R60 to R67): its fields, the decoder, total on all 256 words and
rejecting by name, and after it the encoder, written from the same field codes. -/

namespace Sys2Proof

/-- Why a command word is illegal (R66). The block reports every one as IllegalCommand (R151); the name is the model's. -/
inductive IllegalWord where
  /-- RSV = CMD[7:6] is not 0b00. -/
  | reservedBits
  /-- END = CMD[2:1] is not 0b00 in a command without a byte order. -/
  | orderNotAllowed
  /-- SGN = CMD[0] is not 0 in a command without a signedness. -/
  | signednessNotAllowed
  deriving DecidableEq, Repr

/-- RSV = CMD[7:6] (R61). -/
def rsvField (w : Byte) : BitVec 2 := w.extractLsb' 6 2

/-- OP = CMD[5:3] (R61). -/
def opField (w : Byte) : BitVec 3 := w.extractLsb' 3 3

/-- END = CMD[2:1] (R61). -/
def endField (w : Byte) : BitVec 2 := w.extractLsb' 1 2

/-- SGN = CMD[0] (R61). -/
def sgnField (w : Byte) : BitVec 1 := w.extractLsb' 0 1

/-- The byte order an END code names (R63): all four codes are defined. -/
def endOfCode (e : BitVec 2) : Endianness :=
  match e.getLsbD 1, e.getLsbD 0 with
  | false, false => .bigEndian
  | false, true => .midBigEndian
  | true, false => .littleEndian
  | true, true => .midLittleEndian

/-- The END code of a byte order (R63). -/
def codeOfEnd : Endianness → BitVec 2
  | .bigEndian => 0b00#2
  | .midBigEndian => 0b01#2
  | .littleEndian => 0b10#2
  | .midLittleEndian => 0b11#2

/-- The signedness an SGN code names (R65). -/
def sgnOfCode (s : BitVec 1) : Signedness :=
  if s = 0b0#1 then .signed else .unsigned

/-- The SGN code of a signedness (R65). -/
def codeOfSgn : Signedness → BitVec 1
  | .signed => 0b0#1
  | .unsigned => 0b1#1

/-- R66: a command without a byte order must have END = 0b00. -/
def requireNoOrder (w : Byte) (rest : Except IllegalWord Instr) : Except IllegalWord Instr :=
  if endField w = 0b00#2 then rest else .error .orderNotAllowed

/-- R66: a command without a signedness must have SGN = 0. -/
def requireNoSign (w : Byte) (rest : Except IllegalWord Instr) : Except IllegalWord Instr :=
  if sgnField w = 0b0#1 then rest else .error .signednessNotAllowed

/-- The command a word selects by its OP, END and SGN fields (R62, R64, R66), RSV aside. -/
def decodeOp (w : Byte) : Except IllegalWord Instr :=
  let order := endOfCode (endField w)
  let sgn := sgnOfCode (sgnField w)
  match (opField w).getLsbD 2, (opField w).getLsbD 1, (opField w).getLsbD 0 with
  | false, false, false => requireNoOrder w (.ok (.dec8 sgn))
  | false, false, true => requireNoOrder w (requireNoSign w (.ok .enc8))
  | false, true, false => .ok (.dec16 order sgn)
  | false, true, true => requireNoSign w (.ok (.enc16 order))
  | true, false, false => .ok (.dec32 order sgn)
  | true, false, true => requireNoSign w (.ok (.enc32 order))
  | true, true, false => requireNoOrder w (requireNoSign w (.ok .gps2unix))
  | true, true, true => requireNoOrder w (requireNoSign w (.ok .unix2gps))

/-- The command a command word selects, or why it selects none (R60, R61, R64, R66). -/
def decode (w : Byte) : Except IllegalWord Instr :=
  if rsvField w = 0b00#2 then decodeOp w else .error .reservedBits

/-- A legal command word: one that selects a command (R66, R67). -/
def legalWord (w : Byte) : Bool :=
  match decode w with
  | .ok _ => true
  | .error _ => false

/-- A command word put together from its fields, RSV = 0b00 (R61). -/
def wordOfFields (op : BitVec 3) (order : BitVec 2) (sgn : BitVec 1) : Byte :=
  0b00#2 ++ op ++ order ++ sgn

/-- The command word of a command (R62 to R66). -/
def encode : Instr → Byte
  | .dec8 sgn => wordOfFields 0b000#3 0b00#2 (codeOfSgn sgn)
  | .enc8 => wordOfFields 0b001#3 0b00#2 0b0#1
  | .dec16 order sgn => wordOfFields 0b010#3 (codeOfEnd order) (codeOfSgn sgn)
  | .enc16 order => wordOfFields 0b011#3 (codeOfEnd order) 0b0#1
  | .dec32 order sgn => wordOfFields 0b100#3 (codeOfEnd order) (codeOfSgn sgn)
  | .enc32 order => wordOfFields 0b101#3 (codeOfEnd order) 0b0#1
  | .gps2unix => wordOfFields 0b110#3 0b00#2 0b0#1
  | .unix2gps => wordOfFields 0b111#3 0b00#2 0b0#1

/-- One row of the opcode map (R64): a word selects the row exactly when `w AND mask = pattern`. -/
structure OpcodeRow where
  mask : Byte
  pattern : Byte
  deriving DecidableEq, Repr

/-- A word selects a row (R64). -/
def OpcodeRow.selects (r : OpcodeRow) (w : Byte) : Bool :=
  w &&& r.mask == r.pattern

/-- The row of the opcode map a command stands in (R64). -/
def rowOf : Instr → OpcodeRow
  | .dec8 _ => ⟨0xFE#8, 0x00#8⟩
  | .enc8 => ⟨0xFF#8, 0x08#8⟩
  | .dec16 _ _ => ⟨0xF8#8, 0x10#8⟩
  | .enc16 _ => ⟨0xF9#8, 0x18#8⟩
  | .dec32 _ _ => ⟨0xF8#8, 0x20#8⟩
  | .enc32 _ => ⟨0xF9#8, 0x28#8⟩
  | .gps2unix => ⟨0xFF#8, 0x30#8⟩
  | .unix2gps => ⟨0xFF#8, 0x38#8⟩

/-- The opcode map, in the order of R64. -/
def opcodeMap : List OpcodeRow :=
  [⟨0xFE#8, 0x00#8⟩, ⟨0xFF#8, 0x08#8⟩, ⟨0xF8#8, 0x10#8⟩, ⟨0xF9#8, 0x18#8⟩,
   ⟨0xF8#8, 0x20#8⟩, ⟨0xF9#8, 0x28#8⟩, ⟨0xFF#8, 0x30#8⟩, ⟨0xFF#8, 0x38#8⟩]

/-- The byte count N of a command's byte quantity (R5, R50): 0 for the time commands, which have none. -/
def byteCount : Instr → Nat
  | .dec8 _ | .enc8 => 1
  | .dec16 _ _ | .enc16 _ => 2
  | .dec32 _ _ | .enc32 _ => 4
  | .gps2unix | .unix2gps => 0

/-- What the decoder reads from a row of the opcode table: every row is one command word of 8 bits (R60), so a numeral
that needs more bits is no command word. -/
def decodeTableWord (nbits w : Nat) : Option Instr :=
  if nbits = 8 ∧ w < 256 then (decode (BitVec.ofNat 8 w)).toOption else none

end Sys2Proof
end

