-- ==== Sys2Proof/Machine/Fetch.lean ====
section
/-! DEFINITION. Fetch.lean: where a step takes its command from. The block fetches nothing (R21, R54): the command word is
the CMD field of the pending request. -/

namespace Sys2Proof.Machine

/-- What the block finds to do in a step. -/
inductive Fetched where
  /-- No request is pending. -/
  | nothing
  /-- The pending request's CMD selects a command (R64). -/
  | command (i : Instr)
  /-- The pending request's CMD selects none (R66). -/
  | illegal (why : IllegalWord)
  deriving DecidableEq, Repr

/-- Decode the pending request's command word, and nothing else of the request (R60). -/
def fetch (s : State) : Fetched :=
  match s.req with
  | none => .nothing
  | some rq =>
    match decode rq.cmd with
    | .ok i => .command i
    | .error why => .illegal why

/-- The request `withFetchWord` presents when the host has presented none: the word, LEN equal to the byte count of the
command the word selects, and zero operands (log entry 9). -/
def requestOfWord (w : Byte) : Request :=
  { cmd := w
    len := BitVec.ofNat 3 ((decode w).toOption.elim 0 byteCount)
    lanes := ⟨0#8, 0#8, 0#8, 0#8⟩
    val := 0
    time := 0 }

/-- The pending request with its command word replaced, or a request of that word where none is pending. -/
def requestWithWord (pending : Option Request) (w : Byte) : Request :=
  match pending with
  | some rq => { rq with cmd := w }
  | none => requestOfWord w

end Sys2Proof.Machine
end

