-- ==== Sys2Proof/Machine/Step.lean ====
section
/-! DEFINITION. Step.lean: one step is one transaction, atomic (R26, R51): the pending request's command runs, an illegal
word is reported before any operand is read (R151), and with no request pending the block idles (R21). -/

namespace Sys2Proof.Machine

/-- One step of the block. -/
def step (s : State) : Host.Outcome State Fault Refusal :=
  match fetch s with
  | .nothing => .next s.idle
  | .command i => exec i s
  | .illegal _ => raise s .illegalCommand

/-- The state with an instruction word placed where the next step takes its command from: the CMD field of the pending
request (log entry 9). -/
def State.withFetchWord (s : State) (_nbits w : Nat) : State :=
  s.present (requestWithWord s.req (BitVec.ofNat 8 w))

end Sys2Proof.Machine
end

