-- ==== Sys2Proof/Machine/Flags.lean ====
section
/-! DEFINITION. Flags.lean: the block has no flags and no condition codes (R22); what stands in their place is the STATUS
field of a response and the length field RLEN beside it (R71, R72, R153). -/

namespace Sys2Proof.Machine

/-- The STATUS code of an error (R72, R153). -/
def ErrorStatus.code : ErrorStatus → BitVec 3
  | .invalidLength => 1#3
  | .outOfRange => 2#3
  | .unsupportedEndianness => 3#3
  | .illegalCommand => 4#3

/-- The STATUS code of a response (R72): 0 for OK; 5, 6 and 7 are never produced. -/
def Response.statusCode : Response → BitVec 3
  | .value _ => 0#3
  | .bytes _ => 0#3
  | .time _ => 0#3
  | .error e => e.code

/-- RVAL, where the response has it (R26). -/
def Response.rval : Response → Option Int
  | .value r => some r
  | .bytes _ => none
  | .time _ => none
  | .error _ => none

/-- RLEN, where the response has it (R26, R71). -/
def Response.rlen : Response → Option Nat
  | .value _ => none
  | .bytes rb => some rb.length
  | .time _ => none
  | .error _ => none

/-- RB[k], where the response has it: only the lanes below RLEN of an OK encode response (R26, R184). -/
def Response.rb (r : Response) (k : Nat) : Option Byte :=
  match r with
  | .value _ => none
  | .bytes rb => rb[k]?
  | .time _ => none
  | .error _ => none

/-- RTIME, where the response has it (R26). -/
def Response.rtime : Response → Option Int
  | .value _ => none
  | .bytes _ => none
  | .time t => some t
  | .error _ => none

end Sys2Proof.Machine
end

