-- ==== Sys2Proof/Machine/Text.lean ====
section
/-! DEFINITION. Text.lean: the text forms a host writes requests in and reads responses from: the hexadecimal form of a byte
quantity (R74 to R77), the call syntax and the mnemonic form of a command (R78), its omitted parameters (R79), and the
written form of a result (R78). A text is a list of characters. -/

namespace Sys2Proof.Machine

/-- A text of the host's side. -/
abbrev Text := List Char

/-- `hexval` of R74: defined on hexadecimal digits only, either case (R77). -/
def hexVal (c : Char) : Option Nat :=
  if 48 ≤ c.toNat ∧ c.toNat ≤ 57 then some (c.toNat - 48)
  else if 97 ≤ c.toNat ∧ c.toNat ≤ 102 then some (c.toNat - 87)
  else if 65 ≤ c.toNat ∧ c.toNat ≤ 70 then some (c.toNat - 55)
  else none

/-- HexParse (R74): two digits a byte, the first the high one, lane 0 first. Undefined on any other text (R77). -/
def hexParse : Text → Option (List Byte)
  | [] => some []
  | [_] => none
  | hi :: lo :: rest =>
    match hexVal hi, hexVal lo, hexParse rest with
    | some h, some l, some bs => some (BitVec.ofNat 8 (16 * h + l) :: bs)
    | _, _, _ => none

/-- The digit of a value below 16, in lower case (R75). -/
def hexDigit (n : Nat) : Char :=
  if n < 10 then Char.ofNat (48 + n) else Char.ofNat (87 + n)

/-- HexRender (R75): exactly two lowercase digits a byte, high digit first. -/
def hexRender : List Byte → Text
  | [] => []
  | b :: bs => hexDigit (b.toNat / 16) :: hexDigit (b.toNat % 16) :: hexRender bs

/-- The request lanes that carry a byte quantity: lane k is byte k; bytes beyond the fourth are not carried (R29), and a lane
beyond the quantity is not read, so its value here is of no effect (R26). -/
def lanesOfBytes (bs : List Byte) : Lanes :=
  ⟨bs.getD 0 0#8, bs.getD 1 0#8, bs.getD 2 0#8, bs.getD 3 0#8⟩

/-- The LEN of a byte quantity of m bytes: min(m, 7) (R29, R76). -/
def lenOfBytes (m : Nat) : BitVec 3 :=
  BitVec.ofNat 3 (min m 7)

/-- The request of a command word and a byte quantity (R78), whatever its length (R76). VAL and TIME are not read (R26). -/
def requestOfBytes (w : Byte) (bs : List Byte) : Request :=
  { cmd := w, len := lenOfBytes bs.length, lanes := lanesOfBytes bs, val := 0, time := 0 }

/-- The request of a command word and an integer on VAL (R78). LEN, the lanes and TIME are not read (R26). -/
def requestOfInt (w : Byte) (v : Int) : Request :=
  { cmd := w, len := 0#3, lanes := ⟨0#8, 0#8, 0#8, 0#8⟩, val := v, time := 0 }

/-- The request of a command word and a time in half-seconds on TIME (R78). LEN, the lanes and VAL are not read (R26). -/
def requestOfTime (w : Byte) (t : Int) : Request :=
  { cmd := w, len := 0#3, lanes := ⟨0#8, 0#8, 0#8, 0#8⟩, val := 0, time := t }

/-- A command as the source writes it, a call (R78), with every parameter given (R79). -/
inductive Call where
  | decodeInt8 (h : Text) (sgn : Signedness)
  | encodeInt8 (v : Int)
  | decodeInt16 (h : Text) (order : Endianness) (sgn : Signedness)
  | encodeInt16 (v : Int) (order : Endianness)
  | decodeInt32 (h : Text) (order : Endianness) (sgn : Signedness)
  | encodeInt32 (v : Int) (order : Endianness)
  | gpsToUnix (halves : Int)
  | unixToGps (halves : Int)
  deriving DecidableEq, Repr

/-- What a host gets from writing a command as text. -/
inductive Assembled where
  /-- The request to present. -/
  | request (rq : Request)
  /-- The text fails with an error before a lane is formed (R76). -/
  | failed (e : ErrorStatus)
  /-- No outcome is defined: a character that is no hexadecimal digit (R77), or a number the port cannot carry (R27, R28). -/
  | refused
  deriving DecidableEq, Repr

/-- The command a call stands for (R78). -/
def Call.instr : Call → Instr
  | .decodeInt8 _ sgn => .dec8 sgn
  | .encodeInt8 _ => .enc8
  | .decodeInt16 _ order sgn => .dec16 order sgn
  | .encodeInt16 _ order => .enc16 order
  | .decodeInt32 _ order sgn => .dec32 order sgn
  | .encodeInt32 _ order => .enc32 order
  | .gpsToUnix _ => .gps2unix
  | .unixToGps _ => .unix2gps

/-- A byte-quantity operand in text form for a command of n bytes: the length first (R76), then the digits (R74, R77). -/
def assembleHex (w : Byte) (n : Nat) (h : Text) : Assembled :=
  if h.length ≠ 2 * n then .failed .invalidLength
  else
    match hexParse h with
    | some bs => .request (requestOfBytes w bs)
    | none => .refused

/-- An integer operand: it must be one the VAL port can carry (R27). -/
def assembleInt (c : Config) (w : Byte) (v : Int) : Assembled :=
  if fitsSigned c.valw v then .request (requestOfInt w v) else .refused

/-- A time operand: it must be one the TIME port can carry (R28). -/
def assembleTime (c : Config) (w : Byte) (t : Int) : Assembled :=
  if fitsSigned c.timew t then .request (requestOfTime w t) else .refused

/-- The request a call becomes (R78). -/
def assemble (c : Config) (call : Call) : Assembled :=
  let w := encode call.instr
  match call with
  | .decodeInt8 h _ => assembleHex w 1 h
  | .encodeInt8 v => assembleInt c w v
  | .decodeInt16 h _ _ => assembleHex w 2 h
  | .encodeInt16 v _ => assembleInt c w v
  | .decodeInt32 h _ _ => assembleHex w 4 h
  | .encodeInt32 v _ => assembleInt c w v
  | .gpsToUnix t => assembleTime c w t
  | .unixToGps t => assembleTime c w t

/-! Reading the text of a command. -/

/-- The quote that encloses a hexadecimal string in the text syntax (R78). -/
def quote : Char := Char.ofNat 39

/-- Drop leading spaces. -/
def skipSpaces : Text → Text
  | c :: cs => if c.toNat = 32 then skipSpaces cs else c :: cs
  | [] => []

/-- Drop spaces at both ends. -/
def trim (t : Text) : Text :=
  (skipSpaces (skipSpaces t).reverse).reverse

/-- The text before the first character of a kind, and the text after it where there is one. -/
def splitFirst (sep : Char) : Text → Text × Option Text
  | [] => ([], none)
  | c :: cs =>
    if c = sep then ([], some cs)
    else (c :: (splitFirst sep cs).1, (splitFirst sep cs).2)

/-- The parts of a text between the characters of a kind. -/
def splitAll (sep : Char) : Text → List Text
  | [] => [[]]
  | c :: cs =>
    if c = sep then [] :: splitAll sep cs
    else
      match splitAll sep cs with
      | [] => [[c]]
      | t :: ts => (c :: t) :: ts

/-- A non-empty run of decimal digits as a number. -/
def digitsVal : Text → Option Nat
  | [] => none
  | cs => cs.foldl (fun acc c => acc.bind fun n =>
      if 48 ≤ c.toNat ∧ c.toNat ≤ 57 then some (10 * n + (c.toNat - 48)) else none) (some 0)

/-- A decimal integer with an optional leading minus sign (R78). -/
def parseInt : Text → Option Int
  | [] => none
  | c :: cs =>
    if c = '-' then (digitsVal cs).map fun n => -(n : Int)
    else (digitsVal (c :: cs)).map fun n => (n : Int)

/-- The magnitude of a decimal number of seconds, an integer or an integer followed by `.5`, in half-seconds (R78). -/
def halvesVal (t : Text) : Option Nat :=
  match splitFirst '.' t with
  | (whole, none) => (digitsVal whole).map fun n => 2 * n
  | (whole, some frac) => if frac = ['5'] then (digitsVal whole).map fun n => 2 * n + 1 else none

/-- A decimal number of seconds with an optional leading minus sign, in half-seconds (R78). -/
def parseTime : Text → Option Int
  | [] => none
  | c :: cs =>
    if c = '-' then (halvesVal cs).map fun n => -(n : Int)
    else (halvesVal (c :: cs)).map fun n => (n : Int)

/-- The name of a byte order in the call syntax (R78). -/
def parseOrder (t : Text) : Option Endianness :=
  if t = "BigEndian".toList then some .bigEndian
  else if t = "MidBigEndian".toList then some .midBigEndian
  else if t = "LittleEndian".toList then some .littleEndian
  else if t = "MidLittleEndian".toList then some .midLittleEndian
  else none

/-- The name of a signedness in the call syntax (R78). -/
def parseSign (t : Text) : Option Signedness :=
  if t = "Signed".toList then some .signed
  else if t = "Unsigned".toList then some .unsigned
  else none

/-- The suffix of a byte order in the mnemonic form (R78). -/
def parseOrderSuffix (t : Text) : Option Endianness :=
  if t = "BE".toList then some .bigEndian
  else if t = "MBE".toList then some .midBigEndian
  else if t = "LE".toList then some .littleEndian
  else if t = "MLE".toList then some .midLittleEndian
  else none

/-- The suffix of a signedness in the mnemonic form (R78). -/
def parseSignSuffix (t : Text) : Option Signedness :=
  if t = "S".toList then some .signed
  else if t = "U".toList then some .unsigned
  else none

/-- A quoted string at the start of a text, and what stands after its closing quote. What is inside is not judged here. -/
def parseQuoted (t : Text) : Option (Text × Text) :=
  match skipSpaces t with
  | [] => none
  | c :: cs =>
    if c = quote then
      match splitFirst quote cs with
      | (h, some rest) => some (h, rest)
      | (_, none) => none
    else none

/-- The parameters after a quoted operand: nothing, or a comma and a list of them. -/
def parameters (rest : Text) : Option (List Text) :=
  match skipSpaces rest with
  | [] => some []
  | c :: cs => if c = ',' then some ((splitAll ',' cs).map trim) else none

/-- The signedness of an 8-bit decode call; omitted, it is Signed (R79). -/
def signParameter : List Text → Option Signedness
  | [] => some .signed
  | [s] => parseSign s
  | _ => none

/-- The byte order of an encode call; omitted, it is BigEndian (R79). -/
def orderParameter : List Text → Option Endianness
  | [] => some .bigEndian
  | [e] => parseOrder e
  | _ => none

/-- Byte order and signedness of a 16- or 32-bit decode call; omitted, they are BigEndian and Signed, and there is no form
that omits the order alone (R79). -/
def orderSignParameters : List Text → Option (Endianness × Signedness)
  | [] => some (.bigEndian, .signed)
  | [e] => (parseOrder e).map fun order => (order, .signed)
  | [e, s] =>
    match parseOrder e, parseSign s with
    | some order, some sgn => some (order, sgn)
    | _, _ => none
  | _ => none

/-- The arguments of a decode call. -/
def decodeArguments {α : Type} (ps : List Text → Option α) (args : Text) : Option (Text × α) :=
  match parseQuoted args with
  | some (h, rest) => ((parameters rest).bind ps).map fun a => (h, a)
  | none => none

/-- The arguments of an encode call. -/
def encodeArguments {α : Type} (ps : List Text → Option α) (args : Text) : Option (Int × α) :=
  match (splitAll ',' args).map trim with
  | v :: rest =>
    match parseInt v, ps rest with
    | some n, some a => some (n, a)
    | _, _ => none
  | [] => none

/-- An encode call of eight bits has no parameter (R78). -/
def noParameter : List Text → Option Unit
  | [] => some ()
  | _ => none

/-! The names of the calls in the source (R78). -/

def nameDecodeInt8 : Text := "decodeInt8".toList
def nameEncodeInt8 : Text := "encodeInt8".toList
def nameDecodeInt16 : Text := "decodeInt16".toList
def nameEncodeInt16 : Text := "encodeInt16".toList
def nameDecodeInt32 : Text := "decodeInt32".toList
def nameEncodeInt32 : Text := "encodeInt32".toList
def nameGpsToUnix : Text := "gpsToUnix".toList
def nameUnixToGps : Text := "unixToGps".toList

/-- A call as text: its name and, between parentheses, its arguments (R78). -/
def callText (name args : Text) : Text :=
  name ++ '(' :: args ++ [')']

/-- A call by the source's name and the text between its parentheses (R78, R79). -/
def callOfName (name args : Text) : Option Call :=
  if name = nameDecodeInt8 then
    (decodeArguments signParameter args).map fun a => .decodeInt8 a.1 a.2
  else if name = nameEncodeInt8 then
    (encodeArguments noParameter args).map fun a => .encodeInt8 a.1
  else if name = nameDecodeInt16 then
    (decodeArguments orderSignParameters args).map fun a => .decodeInt16 a.1 a.2.1 a.2.2
  else if name = nameEncodeInt16 then
    (encodeArguments orderParameter args).map fun a => .encodeInt16 a.1 a.2
  else if name = nameDecodeInt32 then
    (decodeArguments orderSignParameters args).map fun a => .decodeInt32 a.1 a.2.1 a.2.2
  else if name = nameEncodeInt32 then
    (encodeArguments orderParameter args).map fun a => .encodeInt32 a.1 a.2
  else if name = nameGpsToUnix then
    (parseTime (trim args)).map .gpsToUnix
  else if name = nameUnixToGps then
    (parseTime (trim args)).map .unixToGps
  else none

/-- The text before a closing parenthesis that ends it. -/
def dropClosing (t : Text) : Option Text :=
  match (trim t).reverse with
  | c :: cs => if c = ')' then some cs.reverse else none
  | [] => none

/-- The source's syntax of a command, `name(arguments)` (R78). -/
def parseCall (t : Text) : Option Call :=
  match splitFirst '(' (trim t) with
  | (name, some rest) => (dropClosing rest).bind fun args => callOfName name args
  | (_, none) => none

/-- A whole operand text that is one quoted string. -/
def quotedOperand (t : Text) : Option Text :=
  match parseQuoted t with
  | some (h, rest) => if skipSpaces rest = [] then some h else none
  | none => none

/-- The call a mnemonic with its suffixes and an operand stand for (R78). -/
def callOfMnemonic (name : Text) (suffixes : List Text) (operand : Text) : Option Call :=
  match suffixes with
  | [] =>
    if name = "ENC8".toList then (parseInt (trim operand)).map .encodeInt8
    else if name = "GPS2UNIX".toList then (parseTime (trim operand)).map .gpsToUnix
    else if name = "UNIX2GPS".toList then (parseTime (trim operand)).map .unixToGps
    else none
  | [a] =>
    if name = "DEC8".toList then
      (parseSignSuffix a).bind fun sgn => (quotedOperand operand).map fun h => .decodeInt8 h sgn
    else if name = "ENC16".toList then
      (parseOrderSuffix a).bind fun order => (parseInt (trim operand)).map fun v => .encodeInt16 v order
    else if name = "ENC32".toList then
      (parseOrderSuffix a).bind fun order => (parseInt (trim operand)).map fun v => .encodeInt32 v order
    else none
  | [a, b] =>
    match parseOrderSuffix a, parseSignSuffix b, quotedOperand operand with
    | some order, some sgn, some h =>
      if name = "DEC16".toList then some (.decodeInt16 h order sgn)
      else if name = "DEC32".toList then some (.decodeInt32 h order sgn)
      else none
    | _, _, _ => none
  | _ => none

/-- The mnemonic form of a command, `DEC16.LE.S '8000'` (R78). -/
def parseMnemonic (t : Text) : Option Call :=
  match splitFirst ' ' (trim t) with
  | (head, some operand) =>
    match splitAll '.' head with
    | name :: suffixes => callOfMnemonic name suffixes operand
    | [] => none
  | (_, none) => none

/-! Writing the text of a command and of a result. -/

/-- A decimal integer with a leading minus sign where it is negative. -/
def renderInt (v : Int) : Text :=
  if v < 0 then '-' :: Nat.toDigits 10 v.natAbs else Nat.toDigits 10 v.natAbs

/-- A count of half-seconds as a decimal number of seconds: an integer, or an integer followed by `.5` (R78). -/
def renderTime (t : Int) : Text :=
  (if t < 0 then ['-'] else []) ++ Nat.toDigits 10 (t.natAbs / 2) ++
    (if t.natAbs % 2 = 1 then ['.', '5'] else [])

/-- The name of a byte order (R78). -/
def orderName : Endianness → Text
  | .bigEndian => "BigEndian".toList
  | .midBigEndian => "MidBigEndian".toList
  | .littleEndian => "LittleEndian".toList
  | .midLittleEndian => "MidLittleEndian".toList

/-- The name of a signedness (R78). -/
def signName : Signedness → Text
  | .signed => "Signed".toList
  | .unsigned => "Unsigned".toList

/-- A text in quotes. -/
def quoted (h : Text) : Text :=
  quote :: h ++ [quote]

/-- The separator between the arguments of a call, as the source writes it. -/
def comma : Text := [',', ' ']

/-- A call in the source's syntax with every parameter written (R78). -/
def renderCall : Call → Text
  | .decodeInt8 h sgn => callText nameDecodeInt8 (quoted h ++ comma ++ signName sgn)
  | .encodeInt8 v => callText nameEncodeInt8 (renderInt v)
  | .decodeInt16 h order sgn =>
    callText nameDecodeInt16 (quoted h ++ comma ++ orderName order ++ comma ++ signName sgn)
  | .encodeInt16 v order => callText nameEncodeInt16 (renderInt v ++ comma ++ orderName order)
  | .decodeInt32 h order sgn =>
    callText nameDecodeInt32 (quoted h ++ comma ++ orderName order ++ comma ++ signName sgn)
  | .encodeInt32 v order => callText nameEncodeInt32 (renderInt v ++ comma ++ orderName order)
  | .gpsToUnix t => callText nameGpsToUnix (renderTime t)
  | .unixToGps t => callText nameUnixToGps (renderTime t)

/-- The name of an error (R150, R151, R153). -/
def errorName : ErrorStatus → Text
  | .invalidLength => "InvalidLength".toList
  | .outOfRange => "OutOfRange".toList
  | .unsupportedEndianness => "UnsupportedEndianness".toList
  | .illegalCommand => "IllegalCommand".toList

/-- A result as the text syntax writes it (R78): a decimal integer, a quoted lowercase hexadecimal string, a decimal number of
seconds, or the name of an error. -/
def renderResponse : Response → Text
  | .value r => renderInt r
  | .bytes rb => quoted (hexRender rb)
  | .time t => renderTime t
  | .error e => errorName e

end Sys2Proof.Machine
end

