-- ==== Sys2Proof/Safety.lean ====
section
/-! DEFINITION. Safety.lean: the terms claims are stated in: which requests the ports carry and which the host may present
(R27, R28, R139, R184), which responses the ports carry, the invariant of the state, and a run of transactions (R191). -/

namespace Sys2Proof.Machine

/-- A signed port of n bits carries the integers from −2^(n−1) to 2^(n−1) − 1 (R27, R28). -/
abbrev FitsSigned (n : Nat) (v : Int) : Prop :=
  -(2 ^ (n - 1)) ≤ v ∧ v < 2 ^ (n - 1)

/-- The encode range of width W: −2^(W−1) ≤ v ≤ 2^W − 1 (R110). -/
abbrev InEncodeRange (w : Nat) (v : Int) : Prop :=
  -(2 ^ (w - 1)) ≤ v ∧ v ≤ 2 ^ w - 1

/-- The whole next state of a completed transaction: the constants as before, no request kept, and this response. -/
abbrev answered (s : State) (r : Response) : Answer :=
  .next { cfg := s.cfg, req := none, rsp := some r }

/-- The integer a W-bit pattern stands for under a signedness: `zext_W` or `sext_W` of it (R91, last form). -/
def patternValue (w u : Nat) : Signedness → Int
  | .unsigned => u
  | .signed => if u < 2 ^ (w - 1) then u else (u : Int) - 2 ^ w

/-- The range of a signedness at width W (R92). -/
def InSignRange (w : Nat) : Signedness → Int → Prop
  | .unsigned, x => 0 ≤ x ∧ x ≤ 2 ^ w - 1
  | .signed, x => -(2 ^ (w - 1)) ≤ x ∧ x ≤ 2 ^ (w - 1) - 1

/-- LEAP[i] as a non-negative integer (R49). -/
def leapWord (leap : List Nat) (i : Nat) : Int :=
  (leap.getD i 0 : Nat)

/-- The number of indices below 16 whose entry satisfies a predicate, as R132 and R134 write it. -/
def countIndices (p : Nat → Prop) [DecidablePred p] : Nat :=
  ((Finset.range 16).filter p).card

/-- The ports can carry the request: VAL fits VALW bits and TIME fits TIMEW bits (R27, R28). -/
abbrev Request.Presentable (c : Config) (rq : Request) : Prop :=
  FitsSigned c.valw rq.val ∧ FitsSigned c.timew rq.time

/-- The one duty of the host that concerns a request: not to present a time whose result does not fit TIMEW (R139, R184). -/
abbrev Request.InDomain (c : Config) (rq : Request) : Prop :=
  (decode rq.cmd = .ok .gps2unix → FitsSigned c.timew (gpsToUnix c.leap (sext c.timew rq.time))) ∧
    (decode rq.cmd = .ok .unix2gps → FitsSigned c.timew (unixToGps c.leap (sext c.timew rq.time)))

/-- The response ports can carry the response, in the ranges the spec gives: RVAL (R69), RLEN (R71), RTIME (R28). -/
abbrev Response.Fits (c : Config) (r : Response) : Prop :=
  (∀ v, r = .value v → FitsSigned c.valw v ∧ -2147483648 ≤ v ∧ v ≤ 4294967295) ∧
    (∀ rb, r = .bytes rb → rb.length = 1 ∨ rb.length = 2 ∨ rb.length = 4) ∧
    (∀ t, r = .time t → FitsSigned c.timew t)

/-- The invariant: the records are ones the ports can carry. That the constants are admissible (R24, R27) holds of every state by
construction. -/
abbrev State.Inv (s : State) : Prop :=
  (∀ rq, s.req = some rq → rq.Presentable s.cfg) ∧
    (∀ r, s.rsp = some r → r.Fits s.cfg)

/-- One transaction: the host presents a request and the block takes its step (R26). -/
def transact (s : State) (rq : Request) : Answer :=
  step (s.present rq)

/-- A run (R191): the requests in the order presented, then one step with none pending. It answers the responses in order and
the end state, or nothing where a request is refused. -/
def serve (s : State) : List Request → Option (List Response × State)
  | [] =>
    match step s with
    | .next t => some ([], t)
    | .fault _ => none
    | .refused _ => none
  | rq :: rqs =>
    match transact s rq with
    | .next t =>
      match t.rsp, serve t rqs with
      | some r, some (rs, u) => some (r :: rs, u)
      | _, _ => none
    | .fault _ => none
    | .refused _ => none

/-- What a call written as text comes to: the error its text fails with (R76), or the block's response to its request. -/
def callOutcome (s : State) (call : Call) : Option Response :=
  match assemble s.cfg call with
  | .failed e => some (.error e)
  | .refused => none
  | .request rq =>
    match transact s rq with
    | .next t => t.rsp
    | .fault _ => none
    | .refused _ => none

/-- The outcome of a command in the source's syntax, written as text (R78). -/
def evalText (s : State) (t : Text) : Option Text :=
  (parseCall t).bind fun call => (callOutcome s call).map renderResponse

/-- R116, one width and order, encode first: the bytes decode to a value congruent to x, equal to it exactly inside the range of
the signedness, and otherwise 2^W away. -/
def EncodeThenDecode (w : Nat) (enc dec : Instr) (sgn : Signedness) : Prop :=
  ∀ s s' rq x, s.req = some rq → sext s.cfg.valw rq.val = x → InEncodeRange w x →
    ∃ rb r, exec enc s = answered s (.bytes rb) ∧
      transact s' (requestOfBytes (encode dec) rb) = answered s' (.value r) ∧
      (2 ^ w : Int) ∣ r - x ∧ (r = x ↔ InSignRange w sgn x) ∧ (r = x ∨ r = x + 2 ^ w ∨ r = x - 2 ^ w)

/-- R116, one width and order, decode first: encoding the decoded value gives the byte quantity back. The value fits the VAL port of
the second block, which has the 33 bits R27 asks for. -/
def DecodeThenEncode (n : Nat) (dec enc : Instr) : Prop :=
  ∀ s s' bs, bs.length = n →
    ∃ r, transact s (requestOfBytes (encode dec) bs) = answered s (.value r) ∧
      transact s' (requestOfInt (encode enc) r) = answered s' (.bytes bs)

end Sys2Proof.Machine
end

