-- ==== Sys2Proof/Certificates/Slice0/Obligations.lean ====
section
/-! DEFINITION. Obligations.lean: the statements about the model. Each docstring names the rule or the section of the spec it
rests on. `answered s r` is the whole next state of a completed transaction: a statement that concludes it says the frame too. -/

open Sys2Proof Sys2Proof.Machine

/-! The eight commands: encoding, result, errors. -/

/-- R93. DEC8: its words, its result, InvalidLength, and the words 0x02 to 0x07 that never reach it. -/
def Obligations.Dec8Command : Prop :=
  decode 0x00#8 = .ok (.dec8 .signed) ∧ decode 0x01#8 = .ok (.dec8 .unsigned) ∧
  (∀ s rq sgn, s.req = some rq → rq.len.toNat = 1 →
    exec (.dec8 sgn) s = answered s (.value (patternValue 8 rq.lanes.b0.toNat sgn))) ∧
  (∀ s rq sgn, s.req = some rq → rq.len.toNat ≠ 1 →
    exec (.dec8 sgn) s = answered s (.error .invalidLength)) ∧
  (∀ s rq, s.req = some rq → 0x02 ≤ rq.cmd.toNat → rq.cmd.toNat ≤ 0x07 →
    step s = answered s (.error .illegalCommand))

/-- R94. DEC16: its words, its result under the two orders it supports, UnsupportedEndianness under the two it does not, and
InvalidLength, which is reported first. -/
def Obligations.Dec16Command : Prop :=
  (∀ order sgn, decode (BitVec.ofNat 8 (0x10 + 2 * (codeOfEnd order).toNat + (codeOfSgn sgn).toNat)) =
    .ok (.dec16 order sgn)) ∧
  (∀ s rq sgn, s.req = some rq → rq.len.toNat = 2 →
    exec (.dec16 .bigEndian sgn) s =
      answered s (.value (patternValue 16 (256 * rq.lanes.b0.toNat + rq.lanes.b1.toNat) sgn)) ∧
    exec (.dec16 .littleEndian sgn) s =
      answered s (.value (patternValue 16 (256 * rq.lanes.b1.toNat + rq.lanes.b0.toNat) sgn)) ∧
    exec (.dec16 .midBigEndian sgn) s = answered s (.error .unsupportedEndianness) ∧
    exec (.dec16 .midLittleEndian sgn) s = answered s (.error .unsupportedEndianness)) ∧
  (∀ s rq order sgn, s.req = some rq → rq.len.toNat ≠ 2 →
    exec (.dec16 order sgn) s = answered s (.error .invalidLength))

/-- R95. DEC32: its words, its result under the four orders, and InvalidLength. -/
def Obligations.Dec32Command : Prop :=
  (∀ order sgn, decode (BitVec.ofNat 8 (0x20 + 2 * (codeOfEnd order).toNat + (codeOfSgn sgn).toNat)) =
    .ok (.dec32 order sgn)) ∧
  (∀ s rq sgn w x y z, s.req = some rq → rq.len.toNat = 4 →
    rq.lanes.b0.toNat = w → rq.lanes.b1.toNat = x → rq.lanes.b2.toNat = y → rq.lanes.b3.toNat = z →
    exec (.dec32 .bigEndian sgn) s =
      answered s (.value (patternValue 32 (16777216 * w + 65536 * x + 256 * y + z) sgn)) ∧
    exec (.dec32 .midBigEndian sgn) s =
      answered s (.value (patternValue 32 (16777216 * x + 65536 * w + 256 * z + y) sgn)) ∧
    exec (.dec32 .littleEndian sgn) s =
      answered s (.value (patternValue 32 (16777216 * z + 65536 * y + 256 * x + w) sgn)) ∧
    exec (.dec32 .midLittleEndian sgn) s =
      answered s (.value (patternValue 32 (16777216 * y + 65536 * z + 256 * w + x) sgn))) ∧
  (∀ s rq order sgn, s.req = some rq → rq.len.toNat ≠ 4 →
    exec (.dec32 order sgn) s = answered s (.error .invalidLength))

/-- R113. ENC8: its word, the words 0x09 to 0x0F that never reach it, its byte on the whole accepted range, and OutOfRange on
every other value. -/
def Obligations.Enc8Command : Prop :=
  decode 0x08#8 = .ok .enc8 ∧
  (∀ s rq, s.req = some rq → 0x09 ≤ rq.cmd.toNat → rq.cmd.toNat ≤ 0x0F →
    step s = answered s (.error .illegalCommand)) ∧
  ∀ s rq v, s.req = some rq → sext s.cfg.valw rq.val = v →
    (-128 ≤ v → v ≤ 255 → exec .enc8 s = answered s (.bytes [BitVec.ofInt 8 (v % 256)])) ∧
    (v ≤ -129 ∨ 256 ≤ v → exec .enc8 s = answered s (.error .outOfRange))

/-- R114. ENC16: its words, the words with SGN = 1 that never reach it, its bytes under the two orders it supports, UnsupportedEndianness under the two it does not, and
OutOfRange, which is reported first. -/
def Obligations.Enc16Command : Prop :=
  (∀ order, decode (BitVec.ofNat 8 (0x18 + 2 * (codeOfEnd order).toNat)) = .ok (.enc16 order)) ∧
  (∀ s rq order, s.req = some rq → rq.cmd.toNat = 0x19 + 2 * (codeOfEnd order).toNat →
    step s = answered s (.error .illegalCommand)) ∧
  ∀ s rq v, s.req = some rq → sext s.cfg.valw rq.val = v →
    (-32768 ≤ v → v ≤ 65535 →
      exec (.enc16 .bigEndian) s =
        answered s (.bytes [BitVec.ofInt 8 (v / 256 % 256), BitVec.ofInt 8 (v % 256)]) ∧
      exec (.enc16 .littleEndian) s =
        answered s (.bytes [BitVec.ofInt 8 (v % 256), BitVec.ofInt 8 (v / 256 % 256)]) ∧
      exec (.enc16 .midBigEndian) s = answered s (.error .unsupportedEndianness) ∧
      exec (.enc16 .midLittleEndian) s = answered s (.error .unsupportedEndianness)) ∧
    (v ≤ -32769 ∨ 65536 ≤ v → ∀ order, exec (.enc16 order) s = answered s (.error .outOfRange))

/-- R115. ENC32: its words, the words with SGN = 1 that never reach it, its bytes under the four orders, and OutOfRange on every
other value. -/
def Obligations.Enc32Command : Prop :=
  (∀ order, decode (BitVec.ofNat 8 (0x28 + 2 * (codeOfEnd order).toNat)) = .ok (.enc32 order)) ∧
  (∀ s rq order, s.req = some rq → rq.cmd.toNat = 0x29 + 2 * (codeOfEnd order).toNat →
    step s = answered s (.error .illegalCommand)) ∧
  ∀ s rq v o1 o2 o3 o4, s.req = some rq → sext s.cfg.valw rq.val = v →
    o1 = BitVec.ofInt 8 (v / 16777216 % 256) → o2 = BitVec.ofInt 8 (v / 65536 % 256) →
    o3 = BitVec.ofInt 8 (v / 256 % 256) → o4 = BitVec.ofInt 8 (v % 256) →
    (-2147483648 ≤ v → v ≤ 4294967295 →
      exec (.enc32 .bigEndian) s = answered s (.bytes [o1, o2, o3, o4]) ∧
      exec (.enc32 .midBigEndian) s = answered s (.bytes [o2, o1, o4, o3]) ∧
      exec (.enc32 .littleEndian) s = answered s (.bytes [o4, o3, o2, o1]) ∧
      exec (.enc32 .midLittleEndian) s = answered s (.bytes [o3, o4, o1, o2])) ∧
    (v ≤ -2147483649 ∨ 4294967296 ≤ v → ∀ order, exec (.enc32 order) s = answered s (.error .outOfRange))

/-- R135. GPS2UNIX: its word, the words 0x31 to 0x37 that never reach it, and its result, the extra half-second at a tabulated
instant included, for every configuration and every request whose result fits the port. -/
def Obligations.Gps2UnixCommand : Prop :=
  decode 0x30#8 = .ok .gps2unix ∧
  (∀ s rq, s.req = some rq → 0x31 ≤ rq.cmd.toNat → rq.cmd.toNat ≤ 0x37 →
    step s = answered s (.error .illegalCommand)) ∧
  ∀ s rq tg tu, s.req = some rq → sext s.cfg.timew rq.time = tg →
    tu = tg + 631929600 - 2 * (countIndices fun i => tg ≥ 2 * leapWord s.cfg.leap i) →
    ((∃ i, i < 16 ∧ tg = 2 * leapWord s.cfg.leap i) → FitsSigned s.cfg.timew (tu + 1) →
      exec .gps2unix s = answered s (.time (tu + 1))) ∧
    ((¬ ∃ i, i < 16 ∧ tg = 2 * leapWord s.cfg.leap i) → FitsSigned s.cfg.timew tu →
      exec .gps2unix s = answered s (.time tu))

/-- R136. UNIX2GPS: its word, the words 0x39 to 0x3F that never reach it, and its result, for an even and for an odd operand, for
every configuration and every request whose result fits the port; and the result is always even. -/
def Obligations.Unix2GpsCommand : Prop :=
  decode 0x38#8 = .ok .unix2gps ∧
  (∀ s rq, s.req = some rq → 0x39 ≤ rq.cmd.toNat → rq.cmd.toNat ≤ 0x3F →
    step s = answered s (.error .illegalCommand)) ∧
  ∀ s rq n isLeap p tg, s.req = some rq →
    (isLeap = 0 ∨ isLeap = 1) → sext s.cfg.timew rq.time = 2 * n + isLeap →
    p = 2 * n - 631929600 →
    tg = p + 2 * (countIndices fun i => p ≥ 2 * (leapWord s.cfg.leap i - i)) + 2 * isLeap →
    FitsSigned s.cfg.timew tg →
    exec .unix2gps s = answered s (.time tg) ∧ tg % 2 = 0

/-! Encoding and the step. -/

/-- R60 to R66. Every command decodes from its own word, every legal word is the word of the command it decodes to, and a step
with that word pending runs exactly that command. -/
def Obligations.DecodeEncodeRoundTrip : Prop :=
  (∀ i, decode (encode i) = .ok i) ∧ (∀ w i, decode w = .ok i → encode i = w) ∧
  (∀ i s rq, s.req = some rq → rq.cmd = encode i → step s = exec i s)

/-- R60, R64, R26. With a request pending whose word decodes, a step is exec of that command at that state and nothing around
it; a word put in place by withFetchWord is what the next step runs. -/
def Obligations.StepRunsTheDecodedCommand : Prop :=
  (∀ s rq i, s.req = some rq → decode rq.cmd = .ok i → step s = exec i s) ∧
  (∀ (s : State) i, step (s.withFetchWord 8 (encode i).toNat) = exec i (s.withFetchWord 8 (encode i).toNat))

/-- R61 to R65. A few words written out from the encoding decode to the commands they stand for. -/
def Obligations.WrittenOutWordsDecode : Prop :=
  decode 0b00000001#8 = .ok (.dec8 .unsigned) ∧ decode 0b00001000#8 = .ok .enc8 ∧
  decode 0b00010100#8 = .ok (.dec16 .littleEndian .signed) ∧ decode 0b00011010#8 = .ok (.enc16 .midBigEndian) ∧
  decode 0b00100111#8 = .ok (.dec32 .midLittleEndian .unsigned) ∧ decode 0b00101110#8 = .ok (.enc32 .midLittleEndian) ∧
  decode 0b00110000#8 = .ok .gps2unix ∧ decode 0b00111000#8 = .ok .unix2gps

/-- R66, R151. A pending word that matches no row of the opcode map is answered with IllegalCommand, whatever the operands are;
a word that matches a row is answered with something else or refused. -/
def Obligations.IllegalWordsAnswerIllegalCommand : Prop :=
  ∀ s rq, s.req = some rq →
    (step s = answered s (.error .illegalCommand) ↔ ∀ r ∈ opcodeMap, rq.cmd &&& r.mask ≠ r.pattern)

/-- R67. The 29 legal words and the 35 illegal words below 0x40, each by name; every word with CMD[7:6] ≠ 0 is illegal. -/
def Obligations.TwentyNineWordsAreLegal : Prop :=
  (∀ w : Byte, legalWord w = true ↔ w ∈
    [0x00#8, 0x01#8, 0x08#8, 0x10#8, 0x11#8, 0x12#8, 0x13#8, 0x14#8, 0x15#8, 0x16#8, 0x17#8, 0x18#8, 0x1A#8, 0x1C#8, 0x1E#8,
     0x20#8, 0x21#8, 0x22#8, 0x23#8, 0x24#8, 0x25#8, 0x26#8, 0x27#8, 0x28#8, 0x2A#8, 0x2C#8, 0x2E#8, 0x30#8, 0x38#8]) ∧
  (∀ w : Byte, legalWord w = false ↔ w.extractLsb' 6 2 ≠ 0#2 ∨ w ∈
    [0x02#8, 0x03#8, 0x04#8, 0x05#8, 0x06#8, 0x07#8, 0x09#8, 0x0A#8, 0x0B#8, 0x0C#8, 0x0D#8, 0x0E#8, 0x0F#8,
     0x19#8, 0x1B#8, 0x1D#8, 0x1F#8, 0x29#8, 0x2B#8, 0x2D#8, 0x2F#8,
     0x31#8, 0x32#8, 0x33#8, 0x34#8, 0x35#8, 0x36#8, 0x37#8, 0x39#8, 0x3A#8, 0x3B#8, 0x3C#8, 0x3D#8, 0x3E#8, 0x3F#8]) ∧
  (∀ s rq, s.req = some rq → (step s = answered s (.error .illegalCommand) ↔ legalWord rq.cmd = false))

/-- R64. A word selects the command of a row exactly when it matches the row's mask and pattern; the rows are disjoint, and a
word is legal exactly when it matches one. -/
def Obligations.OpcodeRowsAreDisjoint : Prop :=
  ∀ w : Byte,
    (∀ r ∈ opcodeMap, w &&& r.mask = r.pattern ↔ ∃ i, decode w = .ok i ∧ rowOf i = r) ∧
    (opcodeMap.filter fun r => r.selects w).length = if legalWord w then 1 else 0

/-- R21, R26. A step with no request pending changes nothing but to drop the earlier response. That the response is dropped is
the model's choice (log entry 3). -/
def Obligations.IdleStepDoesNothing : Prop :=
  ∀ s, s.req = none → step s = .next { cfg := s.cfg, req := none, rsp := none }

/-! Frames, dependence, errors. -/

/-- R20, R26, R162. What every command leaves unchanged: the constants; the request is consumed and exactly one response stands
in its place. -/
def Obligations.FrameOfEveryCommand : Prop :=
  ∀ i s t, exec i s = .next t → t.cfg = s.cfg ∧ t.req = none ∧ ∃ r, t.rsp = some r ∧ exec i s = answered s r

/-- R20, R23, R32. No step changes the table or any other constant. -/
def Obligations.NoStepChangesTheConstants : Prop :=
  ∀ s t, step s = .next t → t.cfg = s.cfg

/-- R20, R163. A step is a function of the constants and the pending request alone: what an earlier transaction answered,
an error included, does not matter. -/
def Obligations.StepDependsOnRequestAndConstantsOnly : Prop :=
  ∀ s₁ s₂, s₁.cfg = s₂.cfg → s₁.req = s₂.req → step s₁ = step s₂

/-- R52. Any two commands commute, and a command presented twice gives the same response twice. -/
def Obligations.CommandsCommuteAndRepeat : Prop :=
  ∀ s a b, a.InDomain s.cfg → b.InDomain s.cfg → ∃ ra rb,
    transact s a = answered s ra ∧ transact { s with req := none, rsp := some ra } b = answered s rb ∧
    transact s b = answered s rb ∧ transact { s with req := none, rsp := some rb } a = answered s ra ∧
    transact { s with req := none, rsp := some ra } a = answered s ra

/-- R26, R29. A request field a command does not read has no effect: the table of R26, family by family. -/
def Obligations.UnreadRequestFieldsHaveNoEffect : Prop :=
  ∀ s₁ s₂ a b, s₁.cfg = s₂.cfg → s₁.req = some a → s₂.req = some b →
    (a.len = b.len → (a.len.toNat = 1 → a.lanes.b0 = b.lanes.b0) →
      ∀ sgn, exec (.dec8 sgn) s₁ = exec (.dec8 sgn) s₂) ∧
    (a.len = b.len → (a.len.toNat = 2 → a.lanes.b0 = b.lanes.b0 ∧ a.lanes.b1 = b.lanes.b1) →
      ∀ order sgn, exec (.dec16 order sgn) s₁ = exec (.dec16 order sgn) s₂) ∧
    (a.len = b.len → (a.len.toNat = 4 → a.lanes = b.lanes) →
      ∀ order sgn, exec (.dec32 order sgn) s₁ = exec (.dec32 order sgn) s₂) ∧
    (a.val = b.val → exec .enc8 s₁ = exec .enc8 s₂ ∧
      ∀ order, exec (.enc16 order) s₁ = exec (.enc16 order) s₂ ∧ exec (.enc32 order) s₁ = exec (.enc32 order) s₂) ∧
    (a.time = b.time → exec .gps2unix s₁ = exec .gps2unix s₂ ∧ exec .unix2gps s₁ = exec .unix2gps s₂)

/-- R2. A BCU command never reads the table (nor TIMEW or ROMW); a GTU command never reads VALW or ROMW. Which request fields
each reads is `UnreadRequestFieldsHaveNoEffect`. -/
def Obligations.TheTwoUnitsShareNothing : Prop :=
  ∀ s₁ s₂ i r, s₁.req = s₂.req →
    (byteCount i ≠ 0 → s₁.cfg.valw = s₂.cfg.valw → exec i s₁ = answered s₁ r → exec i s₂ = answered s₂ r) ∧
    (byteCount i = 0 → s₁.cfg.timew = s₂.cfg.timew → s₁.cfg.leap = s₂.cfg.leap →
      exec i s₁ = answered s₁ r → exec i s₂ = answered s₂ r)

/-- R154, R159. Which command answers which error, and when: exactly the outcomes of the table of R154, one error at a time in
the order of R159; a command that is no time command always answers. -/
def Obligations.EachErrorHasExactlyItsCause : Prop :=
  ∀ s rq v i, s.req = some rq → sext s.cfg.valw rq.val = v →
    (exec i s = answered s (.error .invalidLength) ↔
      (∃ sgn, i = .dec8 sgn ∧ rq.len.toNat ≠ 1) ∨ (∃ order sgn, i = .dec16 order sgn ∧ rq.len.toNat ≠ 2) ∨
      (∃ order sgn, i = .dec32 order sgn ∧ rq.len.toNat ≠ 4)) ∧
    (exec i s = answered s (.error .outOfRange) ↔
      (i = .enc8 ∧ (v < -128 ∨ 255 < v)) ∨ (∃ order, i = .enc16 order ∧ (v < -32768 ∨ 65535 < v)) ∨
      (∃ order, i = .enc32 order ∧ (v < -2147483648 ∨ 4294967295 < v))) ∧
    (exec i s = answered s (.error .unsupportedEndianness) ↔
      ∃ order, (order = .midBigEndian ∨ order = .midLittleEndian) ∧
        ((∃ sgn, i = .dec16 order sgn ∧ rq.len.toNat = 2) ∨ (i = .enc16 order ∧ -32768 ≤ v ∧ v ≤ 65535))) ∧
    exec i s ≠ answered s (.error .illegalCommand) ∧ (byteCount i ≠ 0 → ∃ r, exec i s = answered s r)

/-- R26, R71, R152. The fields that are valid: on OK the one result of the command's class, RLEN equal to the byte count for an
encode, and no other; on an error none. -/
def Obligations.ResponsesCarryTheFieldsOfTheirClass : Prop :=
  ∀ i s t r, exec i s = .next t → t.rsp = some r →
    (r.statusCode ≠ 0#3 → r.rval = none ∧ r.rlen = none ∧ (∀ k, r.rb k = none) ∧ r.rtime = none) ∧
    (r.statusCode = 0#3 →
      match i with
      | .dec8 _ | .dec16 _ _ | .dec32 _ _ =>
        r.rval.isSome = true ∧ r.rlen = none ∧ (∀ k, r.rb k = none) ∧ r.rtime = none
      | .enc8 | .enc16 _ | .enc32 _ =>
        r.rlen = some (byteCount i) ∧ (∀ k, (r.rb k).isSome = true ↔ k < byteCount i) ∧ r.rval = none ∧ r.rtime = none
      | .gps2unix | .unix2gps =>
        r.rtime.isSome = true ∧ r.rval = none ∧ r.rlen = none ∧ (∀ k, r.rb k = none))

/-- R72. The STATUS codes; 5, 6 and 7 are never produced. -/
def Obligations.StatusCodesAreZeroToFour : Prop :=
  (∀ v, (Response.value v).statusCode = 0#3) ∧ (∀ b, (Response.bytes b).statusCode = 0#3) ∧
  (∀ t, (Response.time t).statusCode = 0#3) ∧ (Response.error .invalidLength).statusCode = 1#3 ∧
  (Response.error .outOfRange).statusCode = 2#3 ∧ (Response.error .unsupportedEndianness).statusCode = 3#3 ∧
  (Response.error .illegalCommand).statusCode = 4#3 ∧ ∀ r : Response, r.statusCode.toNat < 5

/-- R184, R73. The block owes exactly one response per request: every request in the host's domain, legal word or not, is
answered, and the request does not stay. -/
def Obligations.EveryRequestInDomainIsAnswered : Prop :=
  ∀ s rq, s.req = some rq → rq.InDomain s.cfg → ∃ r, step s = answered s r

/-- R139, 93_implementation_defined.md part 1. Nothing is stuck: a step is refused for no other reason than a time command's
result outside the TIMEW port, and then it is. -/
def Obligations.OnlyATimeOutsideThePortIsRefused : Prop :=
  (∀ s x, step s = .refused x → x = .timeOutsidePort ∧ ∃ rq, s.req = some rq ∧ ¬ rq.InDomain s.cfg) ∧
  (∀ s rq, s.req = some rq → ¬ rq.InDomain s.cfg → step s = .refused .timeOutsidePort) ∧
  (∀ s x, step s ≠ .fault x)

/-! The invariant and runs. -/

/-- R32, R180, R24. The state after reset: the wired offset, no pending command, no response; and it meets the invariant. The
table and the widths are the spec's defaults (log entries 1 and 2). -/
def Obligations.ResetMeetsTheInvariant : Prop :=
  State.reset.Inv ∧ State.reset.req = none ∧ State.reset.rsp = none ∧ Config.gpsUnixOffset = 315964800 ∧
  State.reset.cfg = Config.default

/-- R24, R25. The default table satisfies every constraint at the default widths, and its smallest gap is 31536001. -/
def Obligations.DefaultTableIsAdmissible : Prop :=
  ConfigOk 64 32 Config.defaultLeap ∧ Config.default.leap = Config.defaultLeap ∧
  (∀ i, i < 15 → leapWord Config.defaultLeap i + 31536001 ≤ leapWord Config.defaultLeap (i + 1)) ∧
  (∃ i, i < 15 ∧ leapWord Config.defaultLeap i + 31536001 = leapWord Config.defaultLeap (i + 1)) ∧
  leapWord Config.defaultLeap 0 = 46828800 ∧ leapWord Config.defaultLeap 15 = 1025136015

/-- R27, R28, R69, R71, R92. Every step keeps the invariant: RVAL fits VALW and lies in −2147483648..4294967295, RLEN is 1, 2 or 4,
and RTIME fits TIMEW. -/
def Obligations.EveryStepKeepsTheInvariant : Prop :=
  ∀ s t, s.Inv → step s = .next t → t.Inv

/-- R191, R20. A run: each response is a function of its own request and the constants, and the end state is the start state. That
neither record is kept after its transaction is how log entry 3 holds R26. -/
def Obligations.RunsAnswerEachRequestAndEndWhereTheyStart : Prop :=
  ∃ f : Config → Request → Response, ∀ s rqs, s.req = none → s.rsp = none →
    (∀ rq ∈ rqs, rq.InDomain s.cfg) → serve s rqs = some (rqs.map (f s.cfg), s)

/-! The endianness multiplexer and the sign-bit interpreter. -/

/-- R90. Assemble: the weighted sums under every order, their bounds, and where Assemble_2 is not defined. -/
def Obligations.AssembleIsTheWeightedSum : Prop :=
  ∀ l : Lanes,
    assemble1 l = l.b0.toNat ∧ assemble1 l < 2 ^ 8 ∧
    assemble2 l .bigEndian = some (256 * l.b0.toNat + l.b1.toNat) ∧
    assemble2 l .littleEndian = some (256 * l.b1.toNat + l.b0.toNat) ∧
    assemble2 l .midBigEndian = none ∧ assemble2 l .midLittleEndian = none ∧
    (∀ order u, assemble2 l order = some u → u < 2 ^ 16) ∧
    (∀ order, assemble4 l order < 2 ^ 32) ∧
    assemble4 l .bigEndian = 16777216 * l.b0.toNat + 65536 * l.b1.toNat + 256 * l.b2.toNat + l.b3.toNat ∧
    assemble4 l .midBigEndian = 16777216 * l.b1.toNat + 65536 * l.b0.toNat + 256 * l.b3.toNat + l.b2.toNat ∧
    assemble4 l .littleEndian = 16777216 * l.b3.toNat + 65536 * l.b2.toNat + 256 * l.b1.toNat + l.b0.toNat ∧
    assemble4 l .midLittleEndian = 16777216 * l.b2.toNat + 65536 * l.b3.toNat + 256 * l.b0.toNat + l.b1.toNat

/-- R91, R8. SignInterp: the source's formula, its equality with u − 2^W, the sign test, and sext and zext. -/
def Obligations.SignInterpIsTwosComplement : Prop :=
  ∀ w u : Nat, 1 ≤ w → u < 2 ^ w →
    signInterp w u .unsigned = u ∧ (u.testBit (w - 1) = true ↔ 2 ^ (w - 1) ≤ u) ∧
    (u < 2 ^ (w - 1) → signInterp w u .signed = u) ∧
    (2 ^ (w - 1) ≤ u → signInterp w u .signed = -(((u ^^^ (2 ^ w - 1) : Nat) : Int) + 1) ∧
      signInterp w u .signed = (u : Int) - 2 ^ w) ∧
    signInterp w u .signed = sext w u ∧ signInterp w u .unsigned = (u : Int) % 2 ^ w

/-- R92. The ranges of a decode result, that the map from pattern to result is a bijection onto its range and a congruence, and
that the two ranges together are the encode range. -/
def Obligations.DecodeResultRanges : Prop :=
  ∀ w : Nat, 1 ≤ w →
    (∀ u sgn, u < 2 ^ w → InSignRange w sgn (signInterp w u sgn) ∧ (2 ^ w : Int) ∣ signInterp w u sgn - u) ∧
    (∀ u₁ u₂ sgn, u₁ < 2 ^ w → u₂ < 2 ^ w → signInterp w u₁ sgn = signInterp w u₂ sgn → u₁ = u₂) ∧
    (∀ x sgn, InSignRange w sgn x → ∃ u, u < 2 ^ w ∧ signInterp w u sgn = x) ∧
    (∀ x, InEncodeRange w x ↔ InSignRange w .signed x ∨ InSignRange w .unsigned x)

/-- R111, R7. The octets of an accepted value are the fields of its pattern v mod 2^W, and a negative v and v + 2^W have the
same octets. -/
def Obligations.OctetsAreTheFieldsOfThePattern : Prop :=
  ∀ (w : Nat) (v : Int),
    (InEncodeRange w v → v % 2 ^ w = if 0 ≤ v then v else v + 2 ^ w) ∧
    (∀ j, 1 ≤ j → 8 * j ≤ w →
      ((octet v (w - 8 * j)).toNat : Int) = v % 2 ^ w / 2 ^ (w - 8 * j) % 256 ∧
      octet (v + 2 ^ w) (w - 8 * j) = octet v (w - 8 * j))

/-- R112. Place under every order, and that Assemble undoes it. -/
def Obligations.AssembleUndoesPlace : Prop :=
  ∀ o1 o2 o3 o4 : Byte,
    place2 o1 o2 .bigEndian = some [o1, o2] ∧ place2 o1 o2 .littleEndian = some [o2, o1] ∧
    place2 o1 o2 .midBigEndian = none ∧ place2 o1 o2 .midLittleEndian = none ∧
    place4 o1 o2 o3 o4 .bigEndian = [o1, o2, o3, o4] ∧ place4 o1 o2 o3 o4 .midBigEndian = [o2, o1, o4, o3] ∧
    place4 o1 o2 o3 o4 .littleEndian = [o4, o3, o2, o1] ∧ place4 o1 o2 o3 o4 .midLittleEndian = [o3, o4, o1, o2] ∧
    (∀ order rb, place2 o1 o2 order = some rb →
      assemble2 (lanesOfBytes rb) order = some (256 * o1.toNat + o2.toNat)) ∧
    (∀ order, assemble4 (lanesOfBytes (place4 o1 o2 o3 o4 order)) order =
      16777216 * o1.toNat + 65536 * o2.toNat + 256 * o3.toNat + o4.toNat)

/-- R46. Every order, read as a permutation of the lanes, is its own inverse. -/
def Obligations.EveryOrderIsItsOwnInverse : Prop :=
  ∀ (order : Endianness) (j : Fin 4), orderPerm order (orderPerm order j) = j

/-- R47. What mixed readings of the same lanes see: (a) the lane of the sign bit, (b) LittleEndian as BigEndian reversed, (c) the
32-bit patterns out of the 16-bit ones. -/
def Obligations.MixedReadingsOfTheSameLanes : Prop :=
  ∀ l : Lanes,
    ((assemble4 l .bigEndian).testBit 31 = l.b0.getLsbD 7 ∧ (assemble4 l .littleEndian).testBit 31 = l.b3.getLsbD 7 ∧
      (assemble4 l .midBigEndian).testBit 31 = l.b1.getLsbD 7 ∧ (assemble4 l .midLittleEndian).testBit 31 = l.b2.getLsbD 7 ∧
      (∀ u, assemble2 l .bigEndian = some u → u.testBit 15 = l.b0.getLsbD 7) ∧
      (∀ u, assemble2 l .littleEndian = some u → u.testBit 15 = l.b1.getLsbD 7)) ∧
    (assemble2 l .littleEndian = assemble2 ⟨l.b1, l.b0, l.b2, l.b3⟩ .bigEndian ∧
      assemble4 l .littleEndian = assemble4 ⟨l.b3, l.b2, l.b1, l.b0⟩ .bigEndian) ∧
    (∀ p q p' q', assemble2 ⟨l.b0, l.b1, 0#8, 0#8⟩ .bigEndian = some p → assemble2 ⟨l.b2, l.b3, 0#8, 0#8⟩ .bigEndian = some q →
      assemble2 ⟨l.b0, l.b1, 0#8, 0#8⟩ .littleEndian = some p' → assemble2 ⟨l.b2, l.b3, 0#8, 0#8⟩ .littleEndian = some q' →
      assemble4 l .bigEndian = 65536 * p + q ∧ assemble4 l .midLittleEndian = 65536 * q + p ∧
      assemble4 l .midBigEndian = 65536 * p' + q' ∧ assemble4 l .littleEndian = 65536 * q' + p')

/-- R96 (c), (d). Signed and unsigned results differ by nothing or by 2^W as the sign bit says; a decode under any order is the
BigEndian decode of the lanes rearranged. -/
def Obligations.DecodeOrdersRearrangeTheLanes : Prop :=
  (∀ w u : Nat, 1 ≤ w → u < 2 ^ w →
    signInterp w u .unsigned - signInterp w u .signed = if u.testBit (w - 1) then 2 ^ w else 0) ∧
  ∀ s rq sgn b0 b1 b2 b3, s.req = some rq → rq.lanes = ⟨b0, b1, b2, b3⟩ →
    exec (.dec16 .littleEndian sgn) s =
      exec (.dec16 .bigEndian sgn) (s.present { rq with lanes := ⟨b1, b0, b2, b3⟩ }) ∧
    exec (.dec32 .midBigEndian sgn) s =
      exec (.dec32 .bigEndian sgn) (s.present { rq with lanes := ⟨b1, b0, b3, b2⟩ }) ∧
    exec (.dec32 .littleEndian sgn) s =
      exec (.dec32 .bigEndian sgn) (s.present { rq with lanes := ⟨b3, b2, b1, b0⟩ }) ∧
    exec (.dec32 .midLittleEndian sgn) s =
      exec (.dec32 .bigEndian sgn) (s.present { rq with lanes := ⟨b2, b3, b0, b1⟩ })

/-- R116. The round trip, both directions, at every width, every order the width supports and both signednesses. -/
def Obligations.RoundTripOfTheBinaryCodec : Prop :=
  ∀ sgn,
    EncodeThenDecode 8 .enc8 (.dec8 sgn) sgn ∧ DecodeThenEncode 1 (.dec8 sgn) .enc8 ∧
    (∀ order, order = .bigEndian ∨ order = .littleEndian →
      EncodeThenDecode 16 (.enc16 order) (.dec16 order sgn) sgn ∧
      DecodeThenEncode 2 (.dec16 order sgn) (.enc16 order)) ∧
    (∀ order, EncodeThenDecode 32 (.enc32 order) (.dec32 order sgn) sgn ∧
      DecodeThenEncode 4 (.dec32 order sgn) (.enc32 order))

/-- R117. The bytes of an encode depend on v modulo 2^W and the order alone; encoding LittleEndian and decoding BigEndian Unsigned
reverses the bytes of the pattern. -/
def Obligations.EncodedBytesDependOnTheResidue : Prop :=
  (∀ s₁ s₂ a b r w enc, s₁.req = some a → s₂.req = some b →
    ((w = 8 ∧ enc = .enc8) ∨ (∃ order, w = 16 ∧ enc = .enc16 order) ∨ (∃ order, w = 32 ∧ enc = .enc32 order)) →
    InEncodeRange w (sext s₁.cfg.valw a.val) → InEncodeRange w (sext s₂.cfg.valw b.val) →
    (2 ^ w : Int) ∣ sext s₁.cfg.valw a.val - sext s₂.cfg.valw b.val →
    exec enc s₁ = answered s₁ r → exec enc s₂ = answered s₂ r) ∧
  (∀ s s' rq x, s.req = some rq → sext s.cfg.valw rq.val = x → InEncodeRange 32 x →
    ∃ rb, exec (.enc32 .littleEndian) s = answered s (.bytes rb) ∧
      transact s' (requestOfBytes (encode (.dec32 .bigEndian .unsigned)) rb) = answered s'
        (.value (16777216 * (x % 256) + 65536 * (x / 256 % 256) + 256 * (x / 65536 % 256) + x / 16777216 % 256)))

/-- R27, R28, R69, R70. The value of a port is the integer its bits are as two's complement: in range, congruent to what was
put on it, and the same integer where that fits. -/
def Obligations.PortsCarryTheirSignedValue : Prop :=
  ∀ (n : Nat) (v : Int), 1 ≤ n →
    FitsSigned n (sext n v) ∧ (2 ^ n : Int) ∣ sext n v - v ∧ (FitsSigned n v → sext n v = v)

/-! The GPS time unit. -/

/-- R132. CountG counts the indices whose entry is at or below g, and under an admissible table g ≥ L_i exactly for i below it. -/
def Obligations.CountGCountsTheEntriesReached : Prop :=
  ∀ (leap : List Nat) (romw : Nat) (tg : Int), LeapTableOk romw leap →
    countG leap tg = (countIndices fun i => tg ≥ 2 * leapWord leap i) ∧
    ∀ i, i < 16 → (tg ≥ 2 * leapWord leap i ↔ i < countG leap tg)

/-- R134, R133. CountU counts the indices with p ≥ L_i − i, exactly those below it under an admissible table; IsTab holds exactly
at an entry, and never at an odd count of half-seconds. -/
def Obligations.CountUAndIsTabReadTheTable : Prop :=
  ∀ (leap : List Nat) (romw : Nat) (p : Int), LeapTableOk romw leap →
    countU leap p = (countIndices fun i => p ≥ 2 * (leapWord leap i - i)) ∧
    (∀ i : Nat, i < 16 → (p ≥ 2 * (leapWord leap i - i) ↔ i < countU leap p)) ∧
    (isTab leap p = true ↔ ∃ i, i < 16 ∧ p = 2 * leapWord leap i) ∧ (p % 2 = 1 → isTab leap p = false)

/-- R137. The two counting predicates differ: with the default table (log entry 1) CountU counts two entries where CountG counts
one, and UNIX2GPS computed with CountG would not undo GPS2UNIX there. -/
def Obligations.TheCountingPredicatesDiffer : Prop :=
  countU Config.defaultLeap (2 * 78364800) = 2 ∧ countG Config.defaultLeap (2 * 78364800) = 1 ∧
  gpsToUnix Config.defaultLeap (2 * 78364802) = 2 * 78364800 + 631929600 ∧
  unixToGps Config.defaultLeap (2 * 78364800 + 631929600) = 2 * 78364802

/-- R135 corner cases (a) to (e), 95_test_vectors.md VT1 to VT4, VT8, VT9: GPS2UNIX around every entry of every admissible
table, below the first and above the last. -/
def Obligations.GpsToUnixAroundALeapSecond : Prop :=
  ∀ leap romw, LeapTableOk romw leap →
    (∀ k : Nat, k < 16 → ∀ L, L = leapWord leap k →
      gpsToUnix leap (2 * (L - 1)) = 2 * (L + 315964799 - k) ∧
      gpsToUnix leap (2 * L) = 2 * (L + 315964799 - k) + 1 ∧
      gpsToUnix leap (2 * L + 1) = 2 * (L + 315964799 - k) + 1 ∧
      gpsToUnix leap (2 * (L + 1)) = 2 * (L + 315964800 - k)) ∧
    (∀ tg, tg < 2 * leapWord leap 0 → gpsToUnix leap tg = tg + 631929600) ∧
    (∀ g, leapWord leap 15 < g → gpsToUnix leap (2 * g) = 2 * (g + 315964784))

/-- R136 corner cases (b), (c), (e), 95_test_vectors.md VT5 to VT7, VT10, VT11: UNIX2GPS around every entry of every admissible
table, below the first and above the last. -/
def Obligations.UnixToGpsAroundALeapSecond : Prop :=
  ∀ leap romw, LeapTableOk romw leap →
    (∀ k : Nat, k < 16 → ∀ L, L = leapWord leap k →
      unixToGps leap (2 * (L + 315964799 - k)) = 2 * (L - 1) ∧
      unixToGps leap (2 * (L + 315964799 - k) + 1) = 2 * L ∧
      unixToGps leap (2 * (L + 315964800 - k)) = 2 * (L + 1)) ∧
    (∀ u, u < leapWord leap 0 + 315964800 → unixToGps leap (2 * u) = 2 * (u - 315964800)) ∧
    (∀ u, leapWord leap 15 + 315964785 ≤ u → unixToGps leap (2 * u) = 2 * (u - 315964784))

/-- R138 (a), (b), (c), (e), for every admissible table: the two epochs answer each other; each command undoes the other on whole
seconds; no whole Unix second gives a tabulated instant; both are non-decreasing; and the growth of GPS2UNIX from one whole second
to the next is half a second into and out of a tabulated instant and one second elsewhere. Part (d) is
`GridSecondsComeBackHalfASecondOff`. -/
def Obligations.TheTimeCommandsInvertEachOther : Prop :=
  ∀ leap romw, LeapTableOk romw leap →
    (gpsToUnix leap 0 = 631929600 ∧ unixToGps leap 631929600 = 0) ∧
    (∀ g, unixToGps leap (gpsToUnix leap (2 * g)) = 2 * g) ∧
    (∀ u, gpsToUnix leap (unixToGps leap (2 * u)) = 2 * u ∧ isTab leap (unixToGps leap (2 * u)) = false) ∧
    (∀ a b, a ≤ b → gpsToUnix leap a ≤ gpsToUnix leap b ∧ unixToGps leap a ≤ unixToGps leap b) ∧
    (∀ g, gpsToUnix leap (2 * (g + 1)) - gpsToUnix leap (2 * g) =
      if isTab leap (2 * g) = true ∨ isTab leap (2 * (g + 1)) = true then 1 else 2)

/-- R138 (d) as the commands of R135 and R136 compute it (log entry 12): from n + 0.5 the pair comes back at n + 1, except where n
is tabulated: there GPS2UNIX gives n and n + 0.5 the same Unix value (R135 (c)), so the pair comes back at n (R138 (b)). -/
def Obligations.GridSecondsComeBackHalfASecondOff : Prop :=
  ∀ leap romw, LeapTableOk romw leap → ∀ n,
    unixToGps leap (gpsToUnix leap (2 * n + 1)) = if isTab leap (2 * n) = true then 2 * n else 2 * n + 2

/-- R138 (d) as its text has it, without the exception at tabulated n. It contradicts R135 (c) with R138 (b), and the vectors VG11
and VU13 (log entry 12): expected to fail. -/
def Obligations.GridSecondsAlwaysComeBackHalfASecondUp : Prop :=
  ∀ leap romw, LeapTableOk romw leap → ∀ n, unixToGps leap (gpsToUnix leap (2 * n + 1)) = 2 * n + 2

/-- R138 (b), (c) through the block: a whole-second GPS time converted by one transaction and its RTIME presented to the other
comes back, and so does a whole-second Unix time, on every block. -/
def Obligations.TimeRoundTripThroughTheBlock : Prop :=
  ∀ s n r, FitsSigned s.cfg.timew (2 * n) →
    (transact s (requestOfTime 0x30#8 (2 * n)) = answered s (.time r) →
      transact { s with req := none, rsp := some (.time r) } (requestOfTime 0x38#8 r) = answered s (.time (2 * n))) ∧
    (transact s (requestOfTime 0x38#8 (2 * n)) = answered s (.time r) →
      transact { s with req := none, rsp := some (.time r) } (requestOfTime 0x30#8 r) = answered s (.time (2 * n)))

/-- R139. The result of a time command differs from its operand by at most 315964800 + 16 seconds, for every table of 16 entries;
a request whose result does not fit TIMEW is refused; at TIMEW = 64 only operands within 631929632 half-seconds of the ends can be. -/
def Obligations.TimeResultsStayNearTheOperand : Prop :=
  (∀ (leap : List Nat) (t : Int), leap.length = 16 →
    |gpsToUnix leap t - t| ≤ 2 * (315964800 + 16) ∧ |unixToGps leap t - t| ≤ 2 * (315964800 + 16)) ∧
  (∀ s rq, s.req = some rq →
    (¬ FitsSigned s.cfg.timew (gpsToUnix s.cfg.leap (sext s.cfg.timew rq.time)) →
      exec .gps2unix s = .refused .timeOutsidePort) ∧
    (¬ FitsSigned s.cfg.timew (unixToGps s.cfg.leap (sext s.cfg.timew rq.time)) →
      exec .unix2gps s = .refused .timeOutsidePort)) ∧
  (∀ s rq, s.req = some rq → s.cfg.timew = 64 →
    (exec .gps2unix s = .refused .timeOutsidePort ∨ exec .unix2gps s = .refused .timeOutsidePort) →
    sext 64 rq.time < -(2 ^ 63) + 631929632 ∨ 2 ^ 63 - 631929632 ≤ sext 64 rq.time)

/-! The text forms. -/

/-- R74. HexParse reads exactly the texts of two hexadecimal digits a byte, the first digit of a pair the high one, in either case;
no other character is a digit, and the digits have the values 0 to 15. -/
def Obligations.HexParseReadsPairsOfDigits : Prop :=
  (∀ h bs, hexParse h = some bs ↔ h.length = 2 * bs.length ∧ ∀ k b, bs[k]? = some b →
    ∃ hi lo, h[2 * k]?.bind hexVal = some hi ∧ h[2 * k + 1]?.bind hexVal = some lo ∧ b.toNat = 16 * hi + lo) ∧
  (∀ c, hexVal c ≠ none ↔ c ∈ "0123456789abcdefABCDEF".toList) ∧
  (∀ k c, "0123456789abcdef".toList[k]? = some c → hexVal c = some k) ∧
  (∀ h : Text, hexParse (h.map Char.toLower) = hexParse h)

/-- R75. HexRender writes exactly two lowercase digits a byte, and HexParse reads them back. -/
def Obligations.HexRenderWritesTwoLowercaseDigits : Prop :=
  ∀ bs : List Byte, (hexRender bs).length = 2 * bs.length ∧
    (∀ c ∈ hexRender bs, c ∈ "0123456789abcdef".toList) ∧ hexParse (hexRender bs) = some bs

/-- R76. A text of the wrong length fails with InvalidLength, and so does the block when an even-length text is presented to it with
LEN = min(m, 7). -/
def Obligations.WrongLengthTextIsInvalidLength : Prop :=
  ∀ s h order sgn,
    (h.length ≠ 2 → callOutcome s (.decodeInt8 h sgn) = some (.error .invalidLength) ∧
      ∀ bs, hexParse h = some bs → transact s (requestOfBytes (encode (.dec8 sgn)) bs) = answered s (.error .invalidLength)) ∧
    (h.length ≠ 4 → callOutcome s (.decodeInt16 h order sgn) = some (.error .invalidLength) ∧
      ∀ bs, hexParse h = some bs →
        transact s (requestOfBytes (encode (.dec16 order sgn)) bs) = answered s (.error .invalidLength)) ∧
    (h.length ≠ 8 → callOutcome s (.decodeInt32 h order sgn) = some (.error .invalidLength) ∧
      ∀ bs, hexParse h = some bs →
        transact s (requestOfBytes (encode (.dec32 order sgn)) bs) = answered s (.error .invalidLength))

/-- R77. A text of the right length with a character that is no hexadecimal digit has no outcome: not InvalidLength, no value. -/
def Obligations.NonHexTextHasNoOutcome : Prop :=
  ∀ s h c order sgn, c ∈ h → hexVal c = none →
    (h.length = 2 → callOutcome s (.decodeInt8 h sgn) = none) ∧
    (h.length = 4 → callOutcome s (.decodeInt16 h order sgn) = none) ∧
    (h.length = 8 → callOutcome s (.decodeInt32 h order sgn) = none)

/-- R78, R27, R28. The request each call becomes: a decode call whose string is 2N hexadecimal digits, an encode call whose integer fits
VALW and a time call whose half-seconds fit TIMEW HAVE a request, the one with the call's command word and the operand on its port; a
call has a request in no other case; and the word decodes to the call's command. A number that does not fit the port has no request by
the model's choice (log entry 11). -/
def Obligations.CallsBecomeTheirRequests : Prop :=
  ∀ c call,
    (match call with
    | .decodeInt8 h _ | .decodeInt16 h _ _ | .decodeInt32 h _ _ =>
      ∀ bs, h.length = 2 * byteCount call.instr → hexParse h = some bs →
        assemble c call = .request (requestOfBytes (encode call.instr) bs)
    | .encodeInt8 v | .encodeInt16 v _ | .encodeInt32 v _ =>
      FitsSigned c.valw v → assemble c call = .request (requestOfInt (encode call.instr) v)
    | .gpsToUnix t | .unixToGps t =>
      FitsSigned c.timew t → assemble c call = .request (requestOfTime (encode call.instr) t)) ∧
    ∀ rq, assemble c call = .request rq →
      decode rq.cmd = .ok call.instr ∧
      match call with
      | .decodeInt8 h _ | .decodeInt16 h _ _ | .decodeInt32 h _ _ =>
        h.length = 2 * byteCount call.instr ∧ rq.len.toNat = byteCount call.instr ∧
          ∃ bs, hexParse h = some bs ∧ rq.lanes = lanesOfBytes bs
      | .encodeInt8 v | .encodeInt16 v _ | .encodeInt32 v _ => rq.val = v ∧ FitsSigned c.valw v
      | .gpsToUnix t | .unixToGps t => rq.time = t ∧ FitsSigned c.timew t

/-- R78. Reading back what the text syntax writes: every call is the reading of its own text, where its hexadecimal string holds no
quote. -/
def Obligations.ParsingUndoesWritingACall : Prop :=
  ∀ call : Call,
    (match call with
      | .decodeInt8 h _ | .decodeInt16 h _ _ | .decodeInt32 h _ _ => quote ∉ h
      | .encodeInt8 _ | .encodeInt16 _ _ | .encodeInt32 _ _ | .gpsToUnix _ | .unixToGps _ => True) →
    parseCall (renderCall call) = some call

/-- R79. The expansions of the omitted parameters; no form omits the byte order and gives the signedness. -/
def Obligations.OmittedParametersMeanBigEndianSigned : Prop :=
  (∀ h order, quote ∉ h →
    parseCall (callText nameDecodeInt8 (quoted h)) = some (.decodeInt8 h .signed) ∧
    parseCall (callText nameDecodeInt16 (quoted h)) = some (.decodeInt16 h .bigEndian .signed) ∧
    parseCall (callText nameDecodeInt16 (quoted h ++ comma ++ orderName order)) = some (.decodeInt16 h order .signed) ∧
    parseCall (callText nameDecodeInt32 (quoted h)) = some (.decodeInt32 h .bigEndian .signed) ∧
    parseCall (callText nameDecodeInt32 (quoted h ++ comma ++ orderName order)) = some (.decodeInt32 h order .signed)) ∧
  (∀ h sgn, quote ∉ h → parseCall (callText nameDecodeInt16 (quoted h ++ comma ++ signName sgn)) = none ∧
    parseCall (callText nameDecodeInt32 (quoted h ++ comma ++ signName sgn)) = none) ∧
  (∀ v, parseCall (callText nameEncodeInt16 (renderInt v)) = some (.encodeInt16 v .bigEndian) ∧
    parseCall (callText nameEncodeInt32 (renderInt v)) = some (.encodeInt32 v .bigEndian))

/-! The configuration. -/

/-- R24, R27, U14. A configuration is refused exactly where R24 (a) to (d) or VALW ≥ 33 fails, entry by entry, and otherwise has the
values given; so every state's table has R24 (a) to (d) and every state's VALW is at least 33. -/
def Obligations.ConfigurationsAreExactlyTheAdmissible : Prop :=
  (∀ valw timew romw leap, Config.configure valw timew romw leap ≠ none ↔
    33 ≤ valw ∧ leap.length = 16 ∧ (∀ i, i < 15 → leapWord leap i ≤ leapWord leap (i + 1)) ∧
    (∀ i, i < 16 → 0 ≤ leapWord leap i ∧ leapWord leap i < 2 ^ romw) ∧ 1 ≤ leapWord leap 0 ∧
    (∀ i, i < 15 → 2 ≤ leapWord leap (i + 1) - leapWord leap i)) ∧
  (∀ valw timew romw leap c, Config.configure valw timew romw leap = some c →
    c.valw = valw ∧ c.timew = timew ∧ c.romw = romw ∧ c.leap = leap) ∧
  (∀ s : State, 33 ≤ s.cfg.valw ∧ s.cfg.leap.length = 16 ∧
    (∀ i, i < 15 → leapWord s.cfg.leap i ≤ leapWord s.cfg.leap (i + 1)) ∧
    (∀ i, i < 16 → 0 ≤ leapWord s.cfg.leap i ∧ leapWord s.cfg.leap i < 2 ^ s.cfg.romw) ∧ 1 ≤ leapWord s.cfg.leap 0 ∧
    (∀ i, i < 15 → 2 ≤ leapWord s.cfg.leap (i + 1) - leapWord s.cfg.leap i))
end

