-- ==== Sys2Proof/Laws/State.lean ====
section
/-! SUPPORT. Laws/State.lean: one lemma per field per update of the state. -/

namespace Sys2Proof.Machine

@[simp] theorem State.present_cfg (s : State) (rq : Request) : (s.present rq).cfg = s.cfg := rfl
@[simp] theorem State.present_req (s : State) (rq : Request) : (s.present rq).req = some rq := rfl
@[simp] theorem State.present_rsp (s : State) (rq : Request) : (s.present rq).rsp = s.rsp := rfl

@[simp] theorem State.respond_cfg (s : State) (r : Response) : (s.respond r).cfg = s.cfg := rfl
@[simp] theorem State.respond_req (s : State) (r : Response) : (s.respond r).req = none := rfl
@[simp] theorem State.respond_rsp (s : State) (r : Response) : (s.respond r).rsp = some r := rfl

@[simp] theorem State.idle_cfg (s : State) : s.idle.cfg = s.cfg := rfl
@[simp] theorem State.idle_req (s : State) : s.idle.req = s.req := rfl
@[simp] theorem State.idle_rsp (s : State) : s.idle.rsp = none := rfl

@[simp] theorem State.withFetchWord_cfg (s : State) (n w : Nat) : (s.withFetchWord n w).cfg = s.cfg := rfl
@[simp] theorem State.withFetchWord_rsp (s : State) (n w : Nat) : (s.withFetchWord n w).rsp = s.rsp := rfl
@[simp] theorem State.withFetchWord_req (s : State) (n w : Nat) :
    (s.withFetchWord n w).req = some (requestWithWord s.req (BitVec.ofNat 8 w)) := rfl

/-- Two states that respond alike under one configuration are equal: a response leaves nothing else behind. -/
theorem State.respond_congr {s t : State} (h : s.cfg = t.cfg) (r : Response) : s.respond r = t.respond r := by
  simp [State.respond, h]

end Sys2Proof.Machine
end

