-- ==== Sys2Proof/Laws/Ops.lean ====
section
/-! SUPPORT. Laws/Ops.lean: what each shared operation can do, said once. -/

namespace Sys2Proof.Machine

/-- The port test is the port's range. -/
theorem fitsSigned_iff {n : Nat} {v : Int} : fitsSigned n v = true ↔ FitsSigned n v := by
  simp [fitsSigned]

/-- The range test of an encode command is the encode range. -/
theorem inEncodeRange_iff {w : Nat} {v : Int} : inEncodeRange w v = true ↔ InEncodeRange w v := by
  simp [inEncodeRange]

@[simp] theorem complete_eq_next {s t : State} {r : Response} : complete s r = .next t ↔ s.respond r = t := by
  simp [complete]

@[simp] theorem raise_eq_next {s t : State} {e : ErrorStatus} : raise s e = .next t ↔ s.respond (.error e) = t := by
  simp [raise]

@[simp] theorem complete_ne_refused {s : State} {r : Response} {x : Refusal} : complete s r ≠ .refused x := by
  simp [complete]

@[simp] theorem raise_ne_refused {s : State} {e : ErrorStatus} {x : Refusal} : raise s e ≠ .refused x := by
  simp [raise]

/-- With a request pending, a command runs on it. -/
theorem onRequest_pending {s : State} {rq : Request} {run : Request → Answer} (h : s.req = some rq) :
    onRequest s run = run rq := by
  simp [onRequest, h]

/-- A command that answers a next state had a request to run on. -/
theorem onRequest_next {s t : State} {run : Request → Answer} (h : onRequest s run = .next t) :
    ∃ rq, s.req = some rq ∧ run rq = .next t := by
  unfold onRequest at h
  split at h
  · exact ⟨_, ‹_›, h⟩
  · cases h

/-- A time result that is delivered fits the port and is the whole answer. -/
theorem completeTime_next {s t : State} {v : Int} (h : completeTime s v = .next t) :
    FitsSigned s.cfg.timew v ∧ t = s.respond (.time v) := by
  unfold completeTime at h
  split at h
  · exact ⟨fitsSigned_iff.mp ‹_›, (complete_eq_next.mp h).symm⟩
  · cases h

/-- A time result that fits the port is delivered. -/
theorem completeTime_fits {s : State} {v : Int} (h : FitsSigned s.cfg.timew v) :
    completeTime s v = .next (s.respond (.time v)) := by
  simp only [completeTime, if_pos (fitsSigned_iff.mpr h), complete]

/-- A time result that does not fit the port is refused. -/
theorem completeTime_outside {s : State} {v : Int} (h : ¬ FitsSigned s.cfg.timew v) :
    completeTime s v = .refused .timeOutsidePort := by
  simp only [completeTime, if_neg (mt fitsSigned_iff.mp h)]

/-- What a step finds to do, by cases of the pending request and its word. -/
theorem fetch_cases (s : State) :
    (s.req = none ∧ fetch s = .nothing) ∨
    (∃ rq i, s.req = some rq ∧ decode rq.cmd = .ok i ∧ fetch s = .command i) ∨
    (∃ rq why, s.req = some rq ∧ decode rq.cmd = .error why ∧ fetch s = .illegal why) := by
  cases hr : s.req with
  | none => exact .inl ⟨rfl, by simp [fetch, hr]⟩
  | some rq =>
    cases hd : decode rq.cmd with
    | ok i => exact .inr (.inl ⟨rq, i, rfl, hd, by simp [fetch, hr, hd]⟩)
    | error why => exact .inr (.inr ⟨rq, why, rfl, hd, by simp [fetch, hr, hd]⟩)

end Sys2Proof.Machine
end

