-- ==== Sys2Proof/Laws/PerInstr.lean ====
section
/-! SUPPORT. Laws/PerInstr.lean: the family Encoding, one lemma per command: its word matches its own row of the opcode map
(R64) and no other. -/

namespace Sys2Proof.Laws.Encoding

/-- The word of a command matches its own row of R64 and no other row, for every parameter it carries. -/
def Statement (i : Instr) : Prop :=
  rowOf i ∈ opcodeMap ∧ ∀ r ∈ opcodeMap, r.selects (encode i) = true ↔ r = rowOf i

theorem dec8 (sgn : Signedness) : Statement (.dec8 sgn) := by
  cases sgn <;> unfold Statement <;> decide

theorem enc8 : Statement .enc8 := by
  unfold Statement; decide

theorem dec16 (order : Endianness) (sgn : Signedness) : Statement (.dec16 order sgn) := by
  cases order <;> cases sgn <;> unfold Statement <;> decide

theorem enc16 (order : Endianness) : Statement (.enc16 order) := by
  cases order <;> unfold Statement <;> decide

theorem dec32 (order : Endianness) (sgn : Signedness) : Statement (.dec32 order sgn) := by
  cases order <;> cases sgn <;> unfold Statement <;> decide

theorem enc32 (order : Endianness) : Statement (.enc32 order) := by
  cases order <;> unfold Statement <;> decide

theorem gps2unix : Statement .gps2unix := by
  unfold Statement; decide

theorem unix2gps : Statement .unix2gps := by
  unfold Statement; decide

end Sys2Proof.Laws.Encoding
end

