-- ==== Sys2Proof/Tests/Slice0.lean ====
section
/-! SUPPORT. Slice0.lean: the model's own tests. Expected results are the spec's: the encoding tables of 30_encoding.md and the
vectors of 95_test_vectors.md, cited by their names. Then, for each statement with hypotheses, a state and operands that meet
them. -/

namespace Sys2Proof.Tests
open Sys2Proof Sys2Proof.Machine

/-- The block at its default parameters with a request pending. -/
def pending (rq : Request) : State :=
  { cfg := Config.default, req := some rq, rsp := none }

/-- A block whose table is as tight as R24 allows. -/
def tightConfig : Config :=
  { valw := 64, timew := 64, romw := 5, leap := [1, 3, 5, 7, 9, 11, 13, 15, 17, 19, 21, 23, 25, 27, 29, 31], ok := by decide }

/-- A block with a narrow value port. -/
def narrowConfig : Config :=
  { valw := 40, timew := 64, romw := 32, leap := Config.defaultLeap, ok := by decide }

/-- A request for a decode command: word, LEN and lanes. -/
def lanesRequest (w : Byte) (len : BitVec 3) (b0 b1 b2 b3 : Byte) : Request :=
  { cmd := w, len := len, lanes := ⟨b0, b1, b2, b3⟩, val := 0, time := 0 }

/-- The state a request presented to the reset block leads to, if it is answered. -/
def after (rq : Request) : Option State :=
  match transact State.reset rq with
  | .next t => some t
  | .fault _ => none
  | .refused _ => none

/-- The default block answers a request with this response, and nothing of the request stays. -/
abbrev Answers (rq : Request) (r : Response) : Prop :=
  (after rq).map (fun t => (t.req, t.rsp)) = some (none, some r)

/-! The command word, written out from R61 to R65: RSV, OP, END, SGN. -/

theorem test_decode_dec8 : decode 0b00000000#8 = .ok (.dec8 .signed) ∧ decode 0b00000001#8 = .ok (.dec8 .unsigned) := by
  decide

theorem test_decode_enc8 : decode 0b00001000#8 = .ok .enc8 := by decide

theorem test_decode_dec16 :
    decode 0b00010000#8 = .ok (.dec16 .bigEndian .signed) ∧ decode 0b00010011#8 = .ok (.dec16 .midBigEndian .unsigned) ∧
    decode 0b00010100#8 = .ok (.dec16 .littleEndian .signed) ∧
    decode 0b00010111#8 = .ok (.dec16 .midLittleEndian .unsigned) := by decide

theorem test_decode_enc16 :
    decode 0b00011000#8 = .ok (.enc16 .bigEndian) ∧ decode 0b00011010#8 = .ok (.enc16 .midBigEndian) ∧
    decode 0b00011100#8 = .ok (.enc16 .littleEndian) ∧ decode 0b00011110#8 = .ok (.enc16 .midLittleEndian) := by decide

theorem test_decode_dec32 :
    decode 0b00100001#8 = .ok (.dec32 .bigEndian .unsigned) ∧ decode 0b00100010#8 = .ok (.dec32 .midBigEndian .signed) ∧
    decode 0b00100101#8 = .ok (.dec32 .littleEndian .unsigned) ∧
    decode 0b00100110#8 = .ok (.dec32 .midLittleEndian .signed) := by decide

theorem test_decode_enc32 :
    decode 0b00101000#8 = .ok (.enc32 .bigEndian) ∧ decode 0b00101010#8 = .ok (.enc32 .midBigEndian) ∧
    decode 0b00101100#8 = .ok (.enc32 .littleEndian) ∧ decode 0b00101110#8 = .ok (.enc32 .midLittleEndian) := by decide

theorem test_decode_gps2unix : decode 0b00110000#8 = .ok .gps2unix := by decide

theorem test_decode_unix2gps : decode 0b00111000#8 = .ok .unix2gps := by decide

/-- The reserved encodings, by the reason of R66. -/
theorem test_illegal_words :
    decode 0x40#8 = .error .reservedBits ∧ decode 0x80#8 = .error .reservedBits ∧ decode 0x02#8 = .error .orderNotAllowed ∧
    decode 0x09#8 = .error .signednessNotAllowed ∧ decode 0x0A#8 = .error .orderNotAllowed ∧
    decode 0x19#8 = .error .signednessNotAllowed ∧ decode 0x2F#8 = .error .signednessNotAllowed ∧
    decode 0x31#8 = .error .signednessNotAllowed ∧ decode 0x3E#8 = .error .orderNotAllowed := by decide

/-- A numeral that is no 8-bit word decodes to nothing. -/
theorem test_table_word :
    decodeTableWord 8 0x14 = some (.dec16 .littleEndian .signed) ∧ decodeTableWord 8 0x114 = none ∧
    decodeTableWord 16 0x14 = none ∧ decodeTableWord 8 0xC0 = none := by decide

/-! WellFormed: parameter values that fail each check of R24 and R27. -/

theorem test_configures_default : Config.configure 64 64 32 Config.defaultLeap = some Config.default := by decide

theorem test_refuses_valw_32 : Config.configure 32 64 32 Config.defaultLeap = none := by decide

theorem test_refuses_fifteen_entries : Config.configure 64 64 32 (Config.defaultLeap.drop 1) = none := by decide

theorem test_refuses_descending : leapAscending Config.defaultLeap.reverse = false := by decide

theorem test_refuses_wide_entry : leapInRom 29 Config.defaultLeap = false := by decide

theorem test_refuses_entry_zero : leapStartsLate (0 :: Config.defaultLeap.drop 1) = false := by decide

theorem test_refuses_gap_of_one : leapGapped [1, 3, 4] = false ∧ leapAscending [1, 3, 4] = true := by decide

/-- A request the ports cannot carry, VAL first, TIME second (R27, R28). -/
theorem test_refuses_wide_operands :
    ¬ (requestOfInt 0x08#8 (2 ^ 63)).Presentable Config.default ∧
    ¬ (requestOfTime 0x30#8 (-(2 ^ 63) - 1)).Presentable Config.default := by decide

/-! Each command, on vectors of 95_test_vectors.md. -/

/-- S01, S02. -/
theorem test_dec8 :
    Answers (lanesRequest 0x00#8 1#3 0x80#8 0#8 0#8 0#8) (.value (-128)) ∧
    Answers (lanesRequest 0x01#8 1#3 0xFF#8 0#8 0#8 0#8) (.value 255) := by decide

/-- S04, S05, S06. -/
theorem test_enc8 :
    Answers (requestOfInt 0x08#8 (-128)) (.bytes [0x80#8]) ∧ Answers (requestOfInt 0x08#8 255) (.bytes [0xFF#8]) ∧
    Answers (requestOfInt 0x08#8 256) (.error .outOfRange) := by decide

/-- S07, S08, S09, S10. -/
theorem test_dec16 :
    Answers (lanesRequest 0x10#8 2#3 0x80#8 0#8 0#8 0#8) (.value (-32768)) ∧
    Answers (lanesRequest 0x14#8 2#3 0x80#8 0#8 0#8 0#8) (.value 128) ∧
    Answers (lanesRequest 0x11#8 2#3 0xFF#8 0xFF#8 0#8 0#8) (.value 65535) ∧
    Answers (lanesRequest 0x10#8 2#3 0xFF#8 0xFF#8 0#8 0#8) (.value (-1)) := by decide

/-- VE10, VE12, VE13: a Mid order at 16 bits; where the length is wrong too, InvalidLength wins. -/
theorem test_dec16_errors :
    Answers (lanesRequest 0x16#8 2#3 0xFF#8 0xFF#8 0#8 0#8) (.error .unsupportedEndianness) ∧
    Answers (lanesRequest 0x12#8 3#3 0x80#8 0#8 0#8 0#8) (.error .invalidLength) ∧
    Answers (lanesRequest 0x17#8 0#3 0#8 0#8 0#8 0#8) (.error .invalidLength) := by decide

/-- VE14 to VE17: a Mid order at 16 bits; where the value is out of range too, OutOfRange wins. -/
theorem test_enc16_errors :
    Answers (requestOfInt 0x1A#8 0) (.error .unsupportedEndianness) ∧
    Answers (requestOfInt 0x1E#8 65535) (.error .unsupportedEndianness) ∧
    Answers (requestOfInt 0x1A#8 65536) (.error .outOfRange) ∧
    Answers (requestOfInt 0x1E#8 (-32769)) (.error .outOfRange) := by decide

/-- V16E06, V16E05. -/
theorem test_enc16 :
    Answers (requestOfInt 0x1C#8 (-32767)) (.bytes [0x01#8, 0x80#8]) ∧
    Answers (requestOfInt 0x18#8 (-32767)) (.bytes [0x80#8, 0x01#8]) := by decide

/-- V32D011, V32D015, V32D013, S13. -/
theorem test_dec32 :
    Answers (lanesRequest 0x22#8 4#3 1#8 2#8 3#8 4#8) (.value 33620995) ∧
    Answers (lanesRequest 0x26#8 4#3 1#8 2#8 3#8 4#8) (.value 50594050) ∧
    Answers (lanesRequest 0x24#8 4#3 1#8 2#8 3#8 4#8) (.value 67305985) ∧
    Answers (lanesRequest 0x20#8 4#3 0xFF#8 0xFF#8 0xFF#8 0xFF#8) (.value (-1)) := by decide

/-- VE06: seven bytes. -/
theorem test_dec32_seven_bytes : Answers (lanesRequest 0x25#8 7#3 1#8 2#8 3#8 4#8) (.error .invalidLength) := by decide

/-- V32E10, V32E12, V32E11, V32E02. -/
theorem test_enc32 :
    Answers (requestOfInt 0x2A#8 (-2147483647)) (.bytes [0x00#8, 0x80#8, 0x01#8, 0x00#8]) ∧
    Answers (requestOfInt 0x2E#8 (-2147483647)) (.bytes [0x00#8, 0x01#8, 0x80#8, 0x00#8]) ∧
    Answers (requestOfInt 0x2C#8 (-2147483647)) (.bytes [0x01#8, 0x00#8, 0x00#8, 0x80#8]) ∧
    Answers (requestOfInt 0x2A#8 (-2147483649)) (.error .outOfRange) := by decide

/-- VG10, VG11: a tabulated instant and half a second later. -/
theorem test_gps2unix_tabulated :
    Answers (requestOfTime 0x30#8 93657600) (.time 725587199) ∧
    Answers (requestOfTime 0x30#8 93657601) (.time 725587199) := by decide

/-- VG20, VG26: just after the fourteenth entry, and beyond the last. -/
theorem test_gps2unix :
    Answers (requestOfTime 0x30#8 1640217628) (.time 2272147200) ∧
    Answers (requestOfTime 0x30#8 4000000000) (.time 4631929568) := by decide

/-- VU13, VU14, VU01, VU16: a leap second, just after it, a negative half second, just before the second entry. -/
theorem test_unix2gps :
    Answers (requestOfTime 0x38#8 725587199) (.time 93657600) ∧ Answers (requestOfTime 0x38#8 725587200) (.time 93657602) ∧
    Answers (requestOfTime 0x38#8 (-3)) (.time (-631929602)) ∧
    Answers (requestOfTime 0x38#8 788659198) (.time 156729600) := by decide

/-- R139: the last time of the 64-bit port is in UNIX2GPS's domain and not in GPS2UNIX's. -/
theorem test_time_at_the_end_of_the_port :
    after (requestOfTime 0x30#8 (2 ^ 63 - 1)) = none ∧
    Answers (requestOfTime 0x38#8 (2 ^ 63 - 2)) (.time (2 ^ 63 - 2 - 631929600 + 32)) := by decide

/-- VI06, VI10, VI12, VI13: IllegalCommand, before any operand is read. -/
theorem test_illegal_command :
    Answers (requestOfInt 0x1F#8 70000) (.error .illegalCommand) ∧
    Answers (lanesRequest 0x40#8 1#3 0x80#8 0#8 0#8 0#8) (.error .illegalCommand) ∧
    Answers (requestOfTime 0xFF#8 0) (.error .illegalCommand) ∧
    Answers (lanesRequest 0x42#8 0#3 0#8 0#8 0#8 0#8) (.error .illegalCommand) := by decide

/-- A word placed by withFetchWord is the next thing the block runs, also where a request is pending already. -/
theorem test_withFetchWord :
    step (State.reset.withFetchWord 8 0x30) = answered State.reset (.time 631929600) ∧
    step ((pending (requestOfInt 0x08#8 300)).withFetchWord 8 0x18) = answered State.reset (.bytes [0x01#8, 0x2C#8]) :=
  ⟨rfl, rfl⟩

/-! The text forms. -/

/-- VH01 to VH03. -/
theorem test_hexParse :
    hexParse "fF".toList = some [0xFF#8] ∧ hexParse "0A0b".toList = some [0x0A#8, 0x0B#8] ∧
    hexParse "80000000".toList = some [0x80#8, 0#8, 0#8, 0#8] := by decide

/-- VH04 to VH06. -/
theorem test_hexRender :
    hexRender [0x05#8] = "05".toList ∧ hexRender [0xAB#8, 0xCD#8] = "abcd".toList ∧
    hexRender [0#8, 0#8, 0#8, 0#8] = "00000000".toList := by decide

/-- VH07, VH08, VH10. -/
theorem test_bad_texts :
    callOutcome State.reset (.decodeInt16 "800".toList .bigEndian .signed) = some (.error .invalidLength) ∧
    callOutcome State.reset (.decodeInt8 [] .signed) = some (.error .invalidLength) ∧
    callOutcome State.reset (.decodeInt8 "g0".toList .signed) = none ∧
    callOutcome State.reset (.decodeInt8 "0x".toList .signed) = none ∧
    callOutcome State.reset (.decodeInt8 " 1".toList .signed) = none := by decide

/-- S06, S08, S11, as the source writes them. -/
theorem test_call_syntax :
    evalText State.reset "encodeInt8(256)".toList = some "OutOfRange".toList ∧
    evalText State.reset "decodeInt16('8000', LittleEndian, Signed)".toList = some "128".toList ∧
    evalText State.reset "encodeInt32(-2147483648, BigEndian)".toList = some "'80000000'".toList := by decide

/-- VG10, VU13 as times in seconds. -/
theorem test_time_syntax :
    evalText State.reset "gpsToUnix(46828800)".toList = some "362793599.5".toList ∧
    evalText State.reset "unixToGps(362793599.5)".toList = some "46828800".toList ∧
    evalText State.reset "unixToGps(-1.5)".toList = some "-315964801".toList := by decide

/-- V16E06, VE10, VE12 in the mnemonic form. -/
theorem test_mnemonic_form :
    parseMnemonic "ENC16.LE -32767".toList = some (.encodeInt16 (-32767) .littleEndian) ∧
    parseMnemonic "DEC16.MLE.S 'ffff'".toList = some (.decodeInt16 "ffff".toList .midLittleEndian .signed) ∧
    parseMnemonic "DEC16.MBE.S '800000'".toList = some (.decodeInt16 "800000".toList .midBigEndian .signed) ∧
    parseMnemonic "GPS2UNIX 46828800.5".toList = some (.gpsToUnix 93657601) := by decide

/-! Witnesses: a state and operands that meet the hypotheses of each statement that has some, clause by clause. -/

/-- Dec8Command: LEN 1 and its neighbours, and the two ends of the words that never reach it. -/
theorem test_meets_dec8 :
    (∃ (s : State) (rq : Request), s.req = some rq ∧ rq.len.toNat = 1) ∧
    (∃ (s : State) (rq : Request), s.req = some rq ∧ rq.len.toNat = 0 ∧ rq.len.toNat ≠ 1) ∧
    (∃ (s : State) (rq : Request), s.req = some rq ∧ rq.len.toNat = 2 ∧ rq.len.toNat ≠ 1) ∧
    (∃ (s : State) (rq : Request), s.req = some rq ∧ 0x02 ≤ rq.cmd.toNat ∧ rq.cmd.toNat ≤ 0x07 ∧ rq.cmd.toNat = 0x02) ∧
    (∃ (s : State) (rq : Request), s.req = some rq ∧ 0x02 ≤ rq.cmd.toNat ∧ rq.cmd.toNat ≤ 0x07 ∧ rq.cmd.toNat = 0x07) :=
  ⟨⟨pending (lanesRequest 0x00#8 1#3 0x80#8 0#8 0#8 0#8), _, rfl, by decide⟩,
   ⟨pending (lanesRequest 0x00#8 0#3 0#8 0#8 0#8 0#8), _, rfl, by decide⟩,
   ⟨pending (lanesRequest 0x00#8 2#3 0#8 0#8 0#8 0#8), _, rfl, by decide⟩,
   ⟨pending (lanesRequest 0x02#8 1#3 0#8 0#8 0#8 0#8), _, rfl, by decide⟩,
   ⟨pending (lanesRequest 0x07#8 1#3 0#8 0#8 0#8 0#8), _, rfl, by decide⟩⟩

/-- The encode and time statements: the ends of the ranges of words that never reach the command, and a word with SGN = 1. -/
theorem test_meets_illegal_neighbours :
    (∃ (s : State) (rq : Request), s.req = some rq ∧ 0x09 ≤ rq.cmd.toNat ∧ rq.cmd.toNat ≤ 0x0F ∧ rq.cmd.toNat = 0x09) ∧
    (∃ (s : State) (rq : Request), s.req = some rq ∧ rq.cmd.toNat = 0x19 + 2 * (codeOfEnd .midLittleEndian).toNat) ∧
    (∃ (s : State) (rq : Request), s.req = some rq ∧ rq.cmd.toNat = 0x29 + 2 * (codeOfEnd .bigEndian).toNat) ∧
    (∃ (s : State) (rq : Request), s.req = some rq ∧ 0x31 ≤ rq.cmd.toNat ∧ rq.cmd.toNat ≤ 0x37 ∧ rq.cmd.toNat = 0x37) ∧
    (∃ (s : State) (rq : Request), s.req = some rq ∧ 0x39 ≤ rq.cmd.toNat ∧ rq.cmd.toNat ≤ 0x3F ∧ rq.cmd.toNat = 0x3F) :=
  ⟨⟨pending (requestOfInt 0x09#8 0), _, rfl, by decide⟩, ⟨pending (requestOfInt 0x1F#8 0), _, rfl, by decide⟩,
   ⟨pending (requestOfInt 0x29#8 0), _, rfl, by decide⟩, ⟨pending (requestOfTime 0x37#8 0), _, rfl, by decide⟩,
   ⟨pending (requestOfTime 0x3F#8 0), _, rfl, by decide⟩⟩

/-- Dec16Command: LEN 2 and its neighbours. -/
theorem test_meets_dec16 :
    (∃ (s : State) (rq : Request), s.req = some rq ∧ rq.len.toNat = 2) ∧ (∃ (s : State) (rq : Request), s.req = some rq ∧ rq.len.toNat = 1 ∧ rq.len.toNat ≠ 2) ∧
    (∃ (s : State) (rq : Request), s.req = some rq ∧ rq.len.toNat = 3 ∧ rq.len.toNat ≠ 2) :=
  ⟨⟨pending (lanesRequest 0x10#8 2#3 0x80#8 0#8 0#8 0#8), _, rfl, by decide⟩,
   ⟨pending (lanesRequest 0x10#8 1#3 0#8 0#8 0#8 0#8), _, rfl, by decide⟩,
   ⟨pending (lanesRequest 0x10#8 3#3 0#8 0#8 0#8 0#8), _, rfl, by decide⟩⟩

/-- Dec32Command: LEN 4 with four lanes, and its neighbours. -/
theorem test_meets_dec32 :
    (∃ (s : State) (rq : Request) (w x y z : Nat), s.req = some rq ∧ rq.len.toNat = 4 ∧ rq.lanes.b0.toNat = w ∧
      rq.lanes.b1.toNat = x ∧ rq.lanes.b2.toNat = y ∧ rq.lanes.b3.toNat = z) ∧
    (∃ (s : State) (rq : Request), s.req = some rq ∧ rq.len.toNat = 3 ∧ rq.len.toNat ≠ 4) ∧
    (∃ (s : State) (rq : Request), s.req = some rq ∧ rq.len.toNat = 5 ∧ rq.len.toNat ≠ 4) :=
  ⟨⟨pending (lanesRequest 0x20#8 4#3 0x12#8 0x34#8 0x56#8 0x78#8), _, 0x12, 0x34, 0x56, 0x78, rfl, by decide⟩,
   ⟨pending (lanesRequest 0x20#8 3#3 0#8 0#8 0#8 0#8), _, rfl, by decide⟩,
   ⟨pending (lanesRequest 0x20#8 5#3 0#8 0#8 0#8 0#8), _, rfl, by decide⟩⟩

/-- A VAL request at the default VALW stands for its own integer: the hypotheses of the encode statements. -/
abbrev Carries (w : Byte) (v : Int) : Prop :=
  (pending (requestOfInt w v)).req = some (requestOfInt w v) ∧ sext (pending (requestOfInt w v)).cfg.valw (requestOfInt w v).val = v

/-- Enc8Command: both ends of the range and the values just outside. -/
theorem test_meets_enc8 : Carries 0x08#8 (-128) ∧ Carries 0x08#8 255 ∧ Carries 0x08#8 (-129) ∧ Carries 0x08#8 256 := by
  decide

/-- Enc16Command: both ends of the range and the values just outside. -/
theorem test_meets_enc16 :
    Carries 0x18#8 (-32768) ∧ Carries 0x18#8 65535 ∧ Carries 0x18#8 (-32769) ∧ Carries 0x18#8 65536 := by decide

/-- Enc32Command: both ends of the range and the values just outside; the octets are named by equations. -/
theorem test_meets_enc32 :
    Carries 0x28#8 (-2147483648) ∧ Carries 0x28#8 4294967295 ∧ Carries 0x28#8 (-2147483649) ∧ Carries 0x28#8 4294967296 ∧
    ∃ o1 o2 o3 o4 : Byte, o1 = BitVec.ofInt 8 (-2147483648 / 16777216 % 256) ∧
      o2 = BitVec.ofInt 8 (-2147483648 / 65536 % 256) ∧ o3 = BitVec.ofInt 8 (-2147483648 / 256 % 256) ∧
      o4 = BitVec.ofInt 8 (-2147483648 % 256) :=
  ⟨by decide, by decide, by decide, by decide, _, _, _, _, rfl, rfl, rfl, rfl⟩

/-- A TIME request at the default parameters stands for its own count of half-seconds. -/
abbrev CarriesTime (w : Byte) (t : Int) : Prop :=
  (pending (requestOfTime w t)).req = some (requestOfTime w t) ∧
    sext (pending (requestOfTime w t)).cfg.timew (requestOfTime w t).time = t

/-- Gps2UnixCommand: the first and the last tabulated instant, and the half-seconds beside the first; the results fit. -/
theorem test_meets_gps2unix :
    (CarriesTime 0x30#8 93657600 ∧ (∃ i, i < 16 ∧ (93657600 : Int) = 2 * leapWord Config.defaultLeap i) ∧
      FitsSigned 64 (93657600 + 631929600 - 2 * (1 : Nat) + 1 : Int) ∧
      (countIndices fun i => (93657600 : Int) ≥ 2 * leapWord Config.defaultLeap i) = 1) ∧
    (CarriesTime 0x30#8 2050272030 ∧ (∃ i, i < 16 ∧ (2050272030 : Int) = 2 * leapWord Config.defaultLeap i) ∧
      (countIndices fun i => (2050272030 : Int) ≥ 2 * leapWord Config.defaultLeap i) = 16) ∧
    (CarriesTime 0x30#8 93657599 ∧ ¬ (∃ i, i < 16 ∧ (93657599 : Int) = 2 * leapWord Config.defaultLeap i) ∧
      FitsSigned 64 (93657599 + 631929600 : Int)) ∧
    (CarriesTime 0x30#8 93657601 ∧ ¬ (∃ i, i < 16 ∧ (93657601 : Int) = 2 * leapWord Config.defaultLeap i)) :=
  ⟨⟨by decide, ⟨0, by decide⟩, by decide, by decide⟩, ⟨by decide, ⟨15, by decide⟩, by decide⟩,
   ⟨by decide, by decide, by decide⟩, by decide, by decide⟩

/-- Unix2GpsCommand: an even operand, an odd one, and a negative odd one. -/
theorem test_meets_unix2gps :
    (CarriesTime 0x38#8 725587200 ∧ (725587200 : Int) = 2 * 362793600 + 0 ∧ FitsSigned 64 (93657602 : Int)) ∧
    (CarriesTime 0x38#8 725587199 ∧ (725587199 : Int) = 2 * 362793599 + 1 ∧
      (countIndices fun i => (2 * 362793599 - 631929600 : Int) ≥ 2 * (leapWord Config.defaultLeap i - i)) = 0) ∧
    (CarriesTime 0x38#8 (-3) ∧ (-3 : Int) = 2 * (-2) + 1) := by decide

/-- DecodeEncodeRoundTrip, StepRunsTheDecodedCommand: a legal word, and a pending request that carries a command's word. -/
theorem test_meets_step_runs :
    (∃ (w : Byte) (i : Instr), decode w = .ok i) ∧ (∃ (i : Instr) (s : State) (rq : Request), s.req = some rq ∧ rq.cmd = encode i) ∧
    (∃ (s : State) (rq : Request) (i : Instr), s.req = some rq ∧ decode rq.cmd = .ok i) :=
  ⟨⟨0x27#8, .dec32 .midLittleEndian .unsigned, by decide⟩,
   ⟨.enc16 .littleEndian, pending (requestOfInt 0x1C#8 1), _, rfl, by decide⟩,
   ⟨pending (requestOfInt 0x1C#8 1), _, .enc16 .littleEndian, rfl, by decide⟩⟩

/-- IllegalWordsAnswerIllegalCommand, TwentyNineWordsAreLegal: a pending illegal word and a pending legal one. -/
theorem test_meets_illegal :
    (∃ (s : State) (rq : Request), s.req = some rq ∧ legalWord rq.cmd = false ∧ ∀ r ∈ opcodeMap, rq.cmd &&& r.mask ≠ r.pattern) ∧
    (∃ (s : State) (rq : Request), s.req = some rq ∧ legalWord rq.cmd = true) :=
  ⟨⟨pending (requestOfInt 0x3F#8 0), _, rfl, by decide⟩, ⟨pending (requestOfInt 0x38#8 0), _, rfl, by decide⟩⟩

/-- IdleStepDoesNothing, with an earlier response to drop. -/
theorem test_meets_idle : ∃ s : State, s.req = none ∧ s.rsp ≠ none :=
  ⟨{ State.reset with rsp := some (.value 1) }, by decide⟩

/-- FrameOfEveryCommand, NoStepChangesTheConstants, ResponsesCarryTheFieldsOfTheirClass: each class of command and an error. -/
theorem test_meets_next :
    (∃ s t r, exec (.dec8 .signed) s = .next t ∧ t.rsp = some r ∧ r.statusCode = 0#3) ∧
    (∃ s t r, exec (.enc16 .littleEndian) s = .next t ∧ t.rsp = some r ∧ r.statusCode = 0#3) ∧
    (∃ s t r, exec .gps2unix s = .next t ∧ t.rsp = some r ∧ r.statusCode = 0#3) ∧
    (∃ s t r, exec .enc8 s = .next t ∧ t.rsp = some r ∧ r.statusCode ≠ 0#3) ∧
    (∃ s t, step s = .next t) :=
  ⟨⟨pending (lanesRequest 0x00#8 1#3 0x80#8 0#8 0#8 0#8), _, _, rfl, rfl, rfl⟩,
   ⟨pending (requestOfInt 0x1C#8 (-1)), _, _, rfl, rfl, rfl⟩, ⟨pending (requestOfTime 0x30#8 0), _, _, rfl, rfl, rfl⟩,
   ⟨pending (requestOfInt 0x08#8 256), _, _, rfl, rfl, by decide⟩, ⟨State.reset, _, rfl⟩⟩

/-- StepDependsOnRequestAndConstantsOnly: two states that differ in the earlier response only. -/
theorem test_meets_depends : ∃ s₁ s₂ : State, s₁.cfg = s₂.cfg ∧ s₁.req = s₂.req ∧ s₁ ≠ s₂ :=
  ⟨pending (requestOfInt 0x08#8 1), { pending (requestOfInt 0x08#8 1) with rsp := some (.error .outOfRange) }, by decide⟩

/-- CommandsCommuteAndRepeat, EveryRequestInDomainIsAnswered, RunsAnswerEachRequestAndEndWhereTheyStart: requests in the host's
domain, an illegal word and a time at the domain's end among them. -/
theorem test_meets_in_domain :
    (requestOfTime 0x30#8 (2 ^ 63 - 1 - 631929568)).InDomain Config.default ∧ (requestOfInt 0xFF#8 0).InDomain Config.default ∧
    (requestOfTime 0x38#8 (-(2 ^ 63) + 631929600)).InDomain Config.default ∧
    State.reset.req = none ∧ State.reset.rsp = none := by decide

/-- UnreadRequestFieldsHaveNoEffect: for each family, two different requests that agree on what it reads. -/
theorem test_meets_unread :
    (∃ a b : Request, a ≠ b ∧ a.len = b.len ∧ a.len.toNat = 1 ∧ a.lanes.b0 = b.lanes.b0) ∧
    (∃ a b : Request, a ≠ b ∧ a.len = b.len ∧ a.len.toNat = 2 ∧ a.lanes.b0 = b.lanes.b0 ∧ a.lanes.b1 = b.lanes.b1) ∧
    (∃ a b : Request, a ≠ b ∧ a.len = b.len ∧ a.len.toNat = 4 ∧ a.lanes = b.lanes) ∧
    (∃ a b : Request, a ≠ b ∧ a.val = b.val) ∧ (∃ a b : Request, a ≠ b ∧ a.time = b.time) :=
  ⟨⟨lanesRequest 0x00#8 1#3 7#8 1#8 0#8 0#8, lanesRequest 0x00#8 1#3 7#8 2#8 0#8 0#8, by decide⟩,
   ⟨lanesRequest 0x10#8 2#3 7#8 1#8 3#8 0#8, lanesRequest 0x10#8 2#3 7#8 1#8 4#8 0#8, by decide⟩,
   ⟨lanesRequest 0x20#8 4#3 7#8 1#8 3#8 0#8, { lanesRequest 0x20#8 4#3 7#8 1#8 3#8 0#8 with val := 9 }, by decide⟩,
   ⟨requestOfInt 0x08#8 7, { requestOfInt 0x08#8 7 with time := 9 }, by decide⟩,
   ⟨requestOfTime 0x30#8 7, { requestOfTime 0x30#8 7 with len := 3#3 }, by decide⟩⟩

/-- TheTwoUnitsShareNothing: a BCU command on two blocks with different tables, a GTU command on two with different VALW. -/
theorem test_meets_two_units :
    (∃ (s₁ s₂ : State) (i : Instr) (r : Response), s₁.req = s₂.req ∧ byteCount i ≠ 0 ∧ s₁.cfg.valw = s₂.cfg.valw ∧
      s₁.cfg.leap ≠ s₂.cfg.leap ∧ exec i s₁ = answered s₁ r) ∧
    (∃ (s₁ s₂ : State) (i : Instr) (r : Response), s₁.req = s₂.req ∧ byteCount i = 0 ∧ s₁.cfg.timew = s₂.cfg.timew ∧
      s₁.cfg.leap = s₂.cfg.leap ∧ s₁.cfg.valw ≠ s₂.cfg.valw ∧ exec i s₁ = answered s₁ r) :=
  ⟨⟨pending (requestOfInt 0x08#8 1), { pending (requestOfInt 0x08#8 1) with cfg := tightConfig }, .enc8,
     .bytes [1#8], rfl, by decide, rfl, by decide, rfl⟩,
   ⟨pending (requestOfTime 0x30#8 0), { pending (requestOfTime 0x30#8 0) with cfg := narrowConfig },
     .gps2unix, .time 631929600, rfl, by decide, rfl, rfl, by decide, rfl⟩⟩

/-- EachErrorHasExactlyItsCause: an operand on the edge of each cause. -/
theorem test_meets_errors :
    Carries 0x08#8 256 ∧ Carries 0x1A#8 65535 ∧ Carries 0x1A#8 65536 ∧
    (∃ (s : State) (rq : Request), s.req = some rq ∧ rq.len.toNat = 2 ∧ rq.cmd = encode (.dec16 .midBigEndian .signed)) :=
  ⟨by decide, by decide, by decide, pending (lanesRequest 0x12#8 2#3 0#8 0#8 0#8 0#8), _, rfl, by decide⟩

/-- OnlyATimeOutsideThePortIsRefused, TimeResultsStayNearTheOperand: a refused request, at TIMEW = 64, for each
time command. -/
theorem test_meets_refused :
    (∃ (s : State) (rq : Request), s.req = some rq ∧ ¬ rq.InDomain s.cfg ∧ s.cfg.timew = 64 ∧
      step s = .refused .timeOutsidePort ∧ exec .gps2unix s = .refused .timeOutsidePort ∧
      ¬ FitsSigned s.cfg.timew (gpsToUnix s.cfg.leap (sext s.cfg.timew rq.time))) ∧
    (∃ (s : State) (rq : Request), s.req = some rq ∧ exec .unix2gps s = .refused .timeOutsidePort ∧
      ¬ FitsSigned s.cfg.timew (unixToGps s.cfg.leap (sext s.cfg.timew rq.time))) :=
  ⟨⟨pending (requestOfTime 0x30#8 (2 ^ 63 - 1)), _, rfl, by decide, rfl, rfl, rfl, by decide⟩,
   ⟨pending (requestOfTime 0x38#8 (-(2 ^ 63))), _, rfl, rfl, by decide⟩⟩

/-- EveryStepKeepsTheInvariant: a state in the invariant with a request pending and an earlier response, whose step goes on. -/
theorem test_meets_invariant : ∃ s t : State, s.Inv ∧ s.req ≠ none ∧ s.rsp ≠ none ∧ step s = .next t := by
  refine ⟨{ pending (requestOfInt 0x08#8 255) with rsp := some (.value 1) }, _, ⟨?_, ?_⟩, by decide, by decide, rfl⟩
  · rintro _ ⟨⟩; decide
  · rintro _ ⟨⟩; exact ⟨by rintro _ ⟨⟩; decide, by rintro _ ⟨⟩, by rintro _ ⟨⟩⟩

/-- SignInterpIsTwosComplement, DecodeResultRanges: a width, and patterns on both sides of the sign. -/
theorem test_meets_patterns :
    (1 ≤ 8 ∧ 127 < 2 ^ 8 ∧ 127 < 2 ^ (8 - 1)) ∧ (128 < 2 ^ 8 ∧ 2 ^ (8 - 1) ≤ 128) ∧
    InSignRange 8 .signed (-128) ∧ InSignRange 8 .signed 127 ∧ InSignRange 8 .unsigned 255 ∧
    (∃ u₁ u₂, u₁ < 2 ^ 8 ∧ u₂ < 2 ^ 8 ∧ signInterp 8 u₁ .signed = signInterp 8 u₂ .signed) := by
  refine ⟨by decide, by decide, ?_, ?_, ?_, 255, 255, by decide⟩ <;> unfold InSignRange <;> decide

/-- OctetsAreTheFieldsOfThePattern: both ends of a range, and the first and last octet of a width. -/
theorem test_meets_octets :
    InEncodeRange 16 (-32768) ∧ InEncodeRange 16 65535 ∧ (1 ≤ 1 ∧ 8 * 1 ≤ 16) ∧ (1 ≤ 2 ∧ 8 * 2 ≤ 16) := by decide

/-- AssembleIsTheWeightedSum, MixedReadingsOfTheSameLanes: a quantity that Assemble_2 takes. -/
theorem test_meets_assemble2 :
    assemble2 ⟨0x12#8, 0x34#8, 0#8, 0#8⟩ .bigEndian = some 0x1234 ∧
    assemble2 ⟨0x56#8, 0x78#8, 0#8, 0#8⟩ .bigEndian = some 0x5678 ∧
    assemble2 ⟨0x12#8, 0x34#8, 0#8, 0#8⟩ .littleEndian = some 0x3412 ∧
    assemble2 ⟨0x56#8, 0x78#8, 0#8, 0#8⟩ .littleEndian = some 0x7856 := by decide

/-- DecodeOrdersRearrangeTheLanes: a pattern of a width with its sign bit set, and a request with four lanes. -/
theorem test_meets_rearrange :
    (1 ≤ 8 ∧ 128 < 2 ^ 8) ∧ (∃ (s : State) (rq : Request), s.req = some rq ∧ rq.lanes = ⟨1#8, 2#8, 3#8, 4#8⟩) :=
  ⟨by decide, pending (lanesRequest 0x24#8 4#3 1#8 2#8 3#8 4#8), _, rfl, rfl⟩

/-- RoundTripOfTheBinaryCodec: an accepted value at each width, and a byte quantity of each length. -/
theorem test_meets_round_trip :
    (Carries 0x08#8 (-1) ∧ InEncodeRange 8 (-1)) ∧ (Carries 0x1C#8 65535 ∧ InEncodeRange 16 65535) ∧
    (Carries 0x2E#8 (-2147483648) ∧ InEncodeRange 32 (-2147483648)) ∧ [0xFF#8].length = 1 ∧
    [1#8, 2#8].length = 2 ∧ [1#8, 2#8, 3#8, 4#8].length = 4 := by decide

/-- EncodedBytesDependOnTheResidue: two accepted values a multiple of 2^W apart, at each width, and an answer for the first. -/
theorem test_meets_residue :
    (Carries 0x08#8 (-1) ∧ Carries 0x08#8 255 ∧ InEncodeRange 8 (-1) ∧ InEncodeRange 8 255 ∧ (2 ^ 8 : Int) ∣ -1 - 255) ∧
    (Carries 0x18#8 (-32768) ∧ Carries 0x18#8 32768 ∧ InEncodeRange 16 (-32768) ∧ InEncodeRange 16 32768 ∧
      (2 ^ 16 : Int) ∣ -32768 - 32768) ∧
    (Carries 0x2A#8 (-1) ∧ Carries 0x2A#8 4294967295 ∧ InEncodeRange 32 (-1) ∧ InEncodeRange 32 4294967295 ∧
      (2 ^ 32 : Int) ∣ -1 - 4294967295) ∧
    (∃ s r, exec .enc8 s = answered s r) :=
  ⟨by decide, by decide, by decide, pending (requestOfInt 0x08#8 (-1)), .bytes [0xFF#8], rfl⟩

/-- PortsCarryTheirSignedValue: a port of one bit and one of 64, at an end of its range. -/
theorem test_meets_ports : (1 ≤ 1 ∧ FitsSigned 1 (-1)) ∧ (1 ≤ 64 ∧ FitsSigned 64 (2 ^ 63 - 1)) := by decide

/-- The statements about every admissible table: the default one is admissible, the first and the last index are below 16, and
there are times below its first and above its last entry, on an entry and off it, even and odd. -/
theorem test_meets_table :
    LeapTableOk 32 Config.defaultLeap ∧ (0 < 16 ∧ 15 < 16) ∧
    (93657599 : Int) < 2 * leapWord Config.defaultLeap 0 ∧ leapWord Config.defaultLeap 15 < 1025136016 ∧
    (362793599 : Int) < leapWord Config.defaultLeap 0 + 315964800 ∧
    leapWord Config.defaultLeap 15 + 315964785 ≤ 1341100800 ∧ (93657601 : Int) % 2 = 1 ∧
    isTab Config.defaultLeap (2 * 46828800) = true ∧ isTab Config.defaultLeap (2 * 46828801) = false ∧ (0 : Int) ≤ 1 ∧
    Config.defaultLeap.length = 16 := by decide

/-- ConfigurationsAreExactlyTheAdmissible: both outcomes. A table as tight as R24 allows is configured, one word narrower it is not. -/
theorem test_meets_configure :
    Config.configure 33 64 5 tightConfig.leap ≠ none ∧ Config.configure 33 64 4 tightConfig.leap = none := by decide

/-- GridSecondsAlwaysComeBackHalfASecondUp fails at a tabulated n: from 46828800.5 the pair comes back at 46828800 (VG11, VU13). -/
theorem test_grid_second_at_a_tabulated_instant :
    unixToGps Config.defaultLeap (gpsToUnix Config.defaultLeap (2 * 46828800 + 1)) = 2 * 46828800 ∧
    unixToGps Config.defaultLeap (gpsToUnix Config.defaultLeap (2 * 46828799 + 1)) = 2 * 46828800 := by decide

/-- TimeRoundTripThroughTheBlock: a block and a time it converts, in both directions. -/
theorem test_meets_time_round_trip :
    FitsSigned State.reset.cfg.timew (2 * 46828800) ∧
    transact State.reset (requestOfTime 0x30#8 0) = answered State.reset (.time 631929600) ∧
    Answers (requestOfTime 0x30#8 (2 * 46828800)) (.time 725587199) ∧
    transact State.reset (requestOfTime 0x38#8 631929600) = answered State.reset (.time 0) :=
  ⟨by decide, rfl, by decide, rfl⟩

/-- WrongLengthTextIsInvalidLength, NonHexTextHasNoOutcome: texts of each wrong length, and a right length with a bad digit. -/
theorem test_meets_texts :
    ("8000".toList.length ≠ 2 ∧ hexParse "8000".toList = some [0x80#8, 0#8]) ∧
    ("80".toList.length ≠ 4 ∧ hexParse "80".toList = some [0x80#8]) ∧ ("".toList.length ≠ 8 ∧ hexParse "".toList = some []) ∧
    ('g' ∈ "g0".toList ∧ hexVal 'g' = none ∧ "g0".toList.length = 2) ∧ ('x' ∈ "0x00".toList ∧ hexVal 'x' = none ∧
      "0x00".toList.length = 4) ∧ (' ' ∈ " 0000000".toList ∧ hexVal ' ' = none ∧ " 0000000".toList.length = 8) := by decide

/-- CallsBecomeTheirRequests: the hypotheses of each class, at an end of the port where there is one. -/
theorem test_meets_call_operands :
    ("8000".toList.length = 2 * byteCount (Call.decodeInt16 "8000".toList .littleEndian .signed).instr ∧
      hexParse "8000".toList = some [0x80#8, 0#8]) ∧
    FitsSigned Config.default.valw (2 ^ 63 - 1) ∧ FitsSigned Config.default.timew (-(2 ^ 63)) := by decide

/-- CallsBecomeTheirRequests, ParsingUndoesWritingACall, OmittedParametersMeanBigEndianSigned: a call that has a request, and a
string without a quote. -/
theorem test_meets_calls :
    assemble Config.default (.decodeInt16 "8000".toList .littleEndian .signed) =
      .request (lanesRequest 0x14#8 2#3 0x80#8 0#8 0#8 0#8) ∧
    assemble Config.default (.encodeInt8 (-128)) = .request (requestOfInt 0x08#8 (-128)) ∧
    assemble Config.default (.gpsToUnix 1) = .request (requestOfTime 0x30#8 1) ∧ quote ∉ "8000".toList := by decide

end Sys2Proof.Tests
end

section
/-! Two blocks side by side: when an answer of one is an answer of the other. One rule per shared operation, then one lemma
per unit, for R2. -/

namespace Sys2Proof.Machine

/-- Whatever response the answer `a₁` of the block `s₁` completes with, `a₂` completes with it on the block `s₂`, each block
keeping its own constants. -/
def AnswersAlike (s₁ s₂ : State) (a₁ a₂ : Answer) : Prop :=
  ∀ r, a₁ = answered s₁ r → a₂ = answered s₂ r

section
variable {s₁ s₂ : State}

theorem complete_eq_answered {s : State} {r r' : Response} : complete s r = answered s r' ↔ r = r' := by
  simp [State.respond]

theorem raise_eq_answered {s : State} {e : ErrorStatus} {r : Response} : raise s e = answered s r ↔ .error e = r := by
  simp [State.respond]

namespace AnswersAlike

theorem complete (r : Response) : AnswersAlike s₁ s₂ (complete s₁ r) (complete s₂ r) :=
  fun _ h => complete_eq_answered.mpr (complete_eq_answered.mp h)

theorem raise (e : ErrorStatus) : AnswersAlike s₁ s₂ (raise s₁ e) (raise s₂ e) :=
  fun _ h => raise_eq_answered.mpr (raise_eq_answered.mp h)

theorem ite {c : Prop} [Decidable c] {a₁ a₂ b₁ b₂ : Answer} (ha : AnswersAlike s₁ s₂ a₁ a₂)
    (hb : AnswersAlike s₁ s₂ b₁ b₂) : AnswersAlike s₁ s₂ (if c then a₁ else b₁) (if c then a₂ else b₂) := by
  split
  · exact ha
  · exact hb

/-- Blocks with one pending request answer alike when they do on every request. -/
theorem onRequest {run₁ run₂ : Request → Answer} (hreq : s₁.req = s₂.req)
    (hrun : ∀ rq, AnswersAlike s₁ s₂ (run₁ rq) (run₂ rq)) :
    AnswersAlike s₁ s₂ (onRequest s₁ run₁) (onRequest s₂ run₂) := by
  intro r h
  obtain ⟨rq, hrq, hr⟩ := onRequest_next h
  exact (onRequest_pending (hreq ▸ hrq)).trans (hrun rq r hr)

/-- A time result is delivered alike on ports of one width. -/
theorem completeTime (htimew : s₁.cfg.timew = s₂.cfg.timew) (v : Int) :
    AnswersAlike s₁ s₂ (completeTime s₁ v) (completeTime s₂ v) := by
  unfold Machine.completeTime
  rw [htimew]
  split
  · exact .complete _
  · exact fun _ h => nomatch h

end AnswersAlike

/-- R69. VALW is the only constant an integer operand depends on. -/
theorem valOperand_congr (hvalw : s₁.cfg.valw = s₂.cfg.valw) : valOperand s₁ = valOperand s₂ := by
  funext rq; simp only [valOperand, hvalw]

/-- R70. TIMEW is the only constant a time operand depends on. -/
theorem timeOperand_congr (htimew : s₁.cfg.timew = s₂.cfg.timew) : timeOperand s₁ = timeOperand s₂ := by
  funext rq; simp only [timeOperand, htimew]

/-- R2. Of the constants, a decode or encode command reads VALW at most: a decode command reads none. -/
theorem exec_answersAlike_of_valw {i : Instr} (hreq : s₁.req = s₂.req) (hbcu : byteCount i ≠ 0)
    (hvalw : s₁.cfg.valw = s₂.cfg.valw) : AnswersAlike s₁ s₂ (exec i s₁) (exec i s₂) := by
  have hval := valOperand_congr hvalw
  cases i with
  | dec8 sgn => exact .onRequest hreq fun _ => .ite (.raise _) (.complete _)
  | dec16 order sgn =>
    refine .onRequest hreq fun rq => .ite (.raise _) ?_
    cases assemble2 rq.lanes order with
    | none => exact .raise _
    | some u => exact .complete _
  | dec32 order sgn => exact .onRequest hreq fun _ => .ite (.raise _) (.complete _)
  | enc8 =>
    refine .onRequest hreq fun rq => ?_
    rw [hval]
    exact .ite (.complete _) (.raise _)
  | enc16 order =>
    refine .onRequest hreq fun rq => ?_
    rw [hval]
    refine .ite ?_ (.raise _)
    cases place2 (octet (valOperand s₂ rq) 8) (octet (valOperand s₂ rq) 0) order with
    | none => exact .raise _
    | some rb => exact .complete _
  | enc32 order =>
    refine .onRequest hreq fun rq => ?_
    rw [hval]
    exact .ite (.complete _) (.raise _)
  | gps2unix => exact absurd rfl hbcu
  | unix2gps => exact absurd rfl hbcu

/-- R2. Of the constants, a time command reads TIMEW and the table at most. -/
theorem exec_answersAlike_of_timew_leap {i : Instr} (hreq : s₁.req = s₂.req) (hgtu : byteCount i = 0)
    (htimew : s₁.cfg.timew = s₂.cfg.timew) (hleap : s₁.cfg.leap = s₂.cfg.leap) :
    AnswersAlike s₁ s₂ (exec i s₁) (exec i s₂) := by
  have htime := timeOperand_congr htimew
  cases i with
  | gps2unix =>
    refine .onRequest hreq fun rq => ?_
    rw [htime, hleap]
    exact .completeTime htimew _
  | unix2gps =>
    refine .onRequest hreq fun rq => ?_
    rw [htime, hleap]
    exact .completeTime htimew _
  | dec8 | enc8 | dec16 | enc16 | dec32 | enc32 => cases hgtu

end

/-- Settles O21: a BCU command's answer carries over along VALW, a GTU command's along TIMEW and the table. -/
theorem theTwoUnitsShareNothing : Obligations.TheTwoUnitsShareNothing := by
  intro s₁ s₂ i r hreq
  exact ⟨fun hbcu hvalw => exec_answersAlike_of_valw hreq hbcu hvalw r,
    fun hgtu htimew hleap => exec_answersAlike_of_timew_leap hreq hgtu htimew hleap r⟩

end Sys2Proof.Machine
end

section
/-! The patterns of the decode commands: how wide each assembled pattern is (R90), and what the sign-bit interpreter makes of a
pattern (R91, R92). -/

namespace Sys2Proof.Machine

theorem assemble1_lt (l : Lanes) : assemble1 l < 2 ^ 8 := l.b0.isLt

theorem joinPair_lt (msb lsb : Byte) : joinPair msb lsb < 2 ^ 16 :=
  Nat.or_lt_two_pow (Nat.shiftLeft_lt msb.isLt) (lsb.isLt.trans (by decide))

theorem assemble2_lt {l : Lanes} {order : Endianness} {u : Nat} (h : assemble2 l order = some u) : u < 2 ^ 16 := by
  cases order with
  | bigEndian => exact Option.some.inj h ▸ joinPair_lt l.b0 l.b1
  | littleEndian => exact Option.some.inj h ▸ joinPair_lt l.b1 l.b0
  | midBigEndian | midLittleEndian => cases h

theorem assemble4_lt (l : Lanes) (order : Endianness) : assemble4 l order < 2 ^ 32 := by
  have shifted (j : Fin 4) {k : Nat} (hk : k ≤ 24) : (l.lane (orderPerm order j)).toNat <<< k < 2 ^ 32 :=
    (Nat.shiftLeft_lt (BitVec.isLt _)).trans_le (Nat.pow_le_pow_right two_pos (by omega))
  exact Nat.or_lt_two_pow (Nat.or_lt_two_pow (Nat.or_lt_two_pow (shifted 0 (by decide)) (shifted 1 (by decide)))
    (shifted 2 (by decide))) ((BitVec.isLt _).trans (by decide))

/-- The source's complement of a pattern: xor with all ones takes it away from all ones. -/
theorem xor_allOnes {w u : Nat} (hu : u < 2 ^ w) : u ^^^ (2 ^ w - 1) = 2 ^ w - (u + 1) := by
  refine Nat.eq_of_testBit_eq fun i => ?_
  rw [Nat.testBit_xor, Nat.testBit_two_pow_sub_one, Nat.testBit_two_pow_sub_succ hu]
  by_cases hi : i < w
  · simp [hi]
  · simp [hi, Nat.testBit_lt_two_pow (hu.trans_le (Nat.pow_le_pow_right two_pos (not_lt.mp hi)))]

/-- The sign bit of a pattern is set exactly in the upper half of the patterns. -/
theorem testBit_sign_iff {w u : Nat} (hw : 1 ≤ w) (hu : u < 2 ^ w) : u.testBit (w - 1) = true ↔ 2 ^ (w - 1) ≤ u := by
  constructor
  · exact Nat.ge_two_pow_of_testBit
  · exact fun h => Nat.testBit_of_two_pow_le_and_two_pow_add_one_gt h (by rwa [Nat.sub_add_cancel hw])

/-- R91, last form. The source's formula reads a pattern as `zext` or `sext` of it. -/
theorem signInterp_eq_patternValue {w u : Nat} (hw : 1 ≤ w) (hu : u < 2 ^ w) (sgn : Signedness) :
    signInterp w u sgn = patternValue w u sgn := by
  cases sgn with
  | unsigned => rfl
  | signed =>
    simp only [signInterp, patternValue, testBit_sign_iff hw hu, xor_allOnes hu]
    have hcast : ((2 ^ w - (u + 1) : Nat) : Int) = 2 ^ w - (u + 1) := by
      rw [Nat.cast_sub hu]; push_cast; rfl
    split <;> split <;> omega

/-- R92. A pattern is read into the range of its signedness. -/
theorem signInterp_inSignRange {w u : Nat} (hw : 1 ≤ w) (hu : u < 2 ^ w) (sgn : Signedness) :
    InSignRange w sgn (signInterp w u sgn) := by
  rw [signInterp_eq_patternValue hw hu]
  have hu' : (u : Int) < 2 ^ w := by exact_mod_cast hu
  cases sgn with
  | unsigned => exact ⟨Int.natCast_nonneg u, Int.le_sub_one_of_lt hu'⟩
  | signed =>
    have hhalf : (2 * 2 ^ (w - 1) : Int) = 2 ^ w := mul_pow_sub_one (by omega) 2
    have hcast : ((2 ^ (w - 1) : Nat) : Int) = 2 ^ (w - 1) := Nat.cast_pow 2 (w - 1)
    simp only [InSignRange, patternValue]
    split <;> constructor <;> omega

/-- R92. Every integer in the range of a width up to 32 lies between the signed minimum and the unsigned maximum of 32 bits. -/
theorem InSignRange.mem_span32 {w : Nat} {sgn : Signedness} {v : Int} (hw : w ≤ 32) (h : InSignRange w sgn v) :
    -2147483648 ≤ v ∧ v ≤ 4294967295 := by
  have hpow : (2 ^ w : Int) ≤ 2 ^ 32 := pow_le_pow_right₀ (by decide) hw
  have hhalf : (2 ^ (w - 1) : Int) ≤ 2 ^ 31 := pow_le_pow_right₀ (by decide) (by omega)
  cases sgn with
  | unsigned => obtain ⟨hlo, hhi⟩ := h; omega
  | signed => obtain ⟨hlo, hhi⟩ := h; omega

/-- R27. A value port has the 33 bits that hold every decoded value. -/
theorem fitsSigned_of_span32 {n : Nat} {v : Int} (hn : 33 ≤ n) (hlo : -2147483648 ≤ v) (hhi : v ≤ 4294967295) :
    FitsSigned n v := by
  have hhalf : (2 ^ 32 : Int) ≤ 2 ^ (n - 1) := pow_le_pow_right₀ (by decide) (by omega)
  constructor <;> omega

theorem place2_length {o1 o2 : Byte} {order : Endianness} {rb : List Byte} (h : place2 o1 o2 order = some rb) :
    rb.length = 2 := by
  cases order with
  | bigEndian | littleEndian => cases h; rfl
  | midBigEndian | midLittleEndian => cases h

end Sys2Proof.Machine
end

section
/-! What a command and a step can do, said once: the responses each command can complete with, and the next states they stand
in. The frame, the fields of a response and the invariant are read off from it. -/

namespace Sys2Proof.Machine

/-- A response the command can complete with, on a block with these constants: an error, or the one result of its class in its
range (R69 to R71, R92). -/
inductive Delivers (c : Config) : Instr → Response → Prop
  | error (i : Instr) (e : ErrorStatus) : Delivers c i (.error e)
  | dec8 {sgn : Signedness} {v : Int} (hv : InSignRange 8 sgn v) : Delivers c (.dec8 sgn) (.value v)
  | dec16 {order : Endianness} {sgn : Signedness} {v : Int} (hv : InSignRange 16 sgn v) :
      Delivers c (.dec16 order sgn) (.value v)
  | dec32 {order : Endianness} {sgn : Signedness} {v : Int} (hv : InSignRange 32 sgn v) :
      Delivers c (.dec32 order sgn) (.value v)
  | enc8 {rb : List Byte} (hrb : rb.length = 1) : Delivers c .enc8 (.bytes rb)
  | enc16 {order : Endianness} {rb : List Byte} (hrb : rb.length = 2) : Delivers c (.enc16 order) (.bytes rb)
  | enc32 {order : Endianness} {rb : List Byte} (hrb : rb.length = 4) : Delivers c (.enc32 order) (.bytes rb)
  | gps2unix {t : Int} (ht : FitsSigned c.timew t) : Delivers c .gps2unix (.time t)
  | unix2gps {t : Int} (ht : FitsSigned c.timew t) : Delivers c .unix2gps (.time t)

/-- The answer, where it is a next state, is a completed transaction of the command. -/
def DeliversOnly (s : State) (i : Instr) (a : Answer) : Prop :=
  ∀ t, a = .next t → ∃ r, Delivers s.cfg i r ∧ t = s.respond r

namespace DeliversOnly
variable {s : State} {i : Instr}

theorem complete {r : Response} (hr : Delivers s.cfg i r) : DeliversOnly s i (complete s r) :=
  fun _ h => ⟨r, hr, (complete_eq_next.mp h).symm⟩

theorem raise (e : ErrorStatus) : DeliversOnly s i (raise s e) :=
  fun _ h => ⟨.error e, .error i e, (raise_eq_next.mp h).symm⟩

theorem ite {c : Prop} [Decidable c] {a b : Answer} (ha : DeliversOnly s i a) (hb : DeliversOnly s i b) :
    DeliversOnly s i (if c then a else b) := by
  split
  · exact ha
  · exact hb

theorem onRequest {run : Request → Answer} (hrun : ∀ rq, DeliversOnly s i (run rq)) :
    DeliversOnly s i (onRequest s run) := by
  intro t h
  obtain ⟨rq, -, hrq⟩ := onRequest_next h
  exact hrun rq t hrq

theorem completeTime {v : Int} (hv : FitsSigned s.cfg.timew v → Delivers s.cfg i (.time v)) :
    DeliversOnly s i (completeTime s v) := by
  intro t h
  obtain ⟨hfits, ht⟩ := completeTime_next h
  exact ⟨.time v, hv hfits, ht⟩

end DeliversOnly

/-- What every command can do: one response of its class takes the request's place, and nothing else changes. -/
theorem exec_deliversOnly (i : Instr) (s : State) : DeliversOnly s i (exec i s) := by
  cases i with
  | dec8 sgn =>
    exact .onRequest fun rq => .ite (.raise _)
      (.complete (.dec8 (signInterp_inSignRange (by decide) (assemble1_lt rq.lanes) sgn)))
  | dec16 order sgn =>
    refine .onRequest fun rq => .ite (.raise _) ?_
    cases hu : assemble2 rq.lanes order with
    | none => exact .raise _
    | some u => exact .complete (.dec16 (signInterp_inSignRange (by decide) (assemble2_lt hu) sgn))
  | dec32 order sgn =>
    exact .onRequest fun rq => .ite (.raise _)
      (.complete (.dec32 (signInterp_inSignRange (by decide) (assemble4_lt rq.lanes order) sgn)))
  | enc8 => exact .onRequest fun rq => .ite (.complete (.enc8 rfl)) (.raise _)
  | enc16 order =>
    refine .onRequest fun rq => .ite ?_ (.raise _)
    cases hrb : place2 (octet (valOperand s rq) 8) (octet (valOperand s rq) 0) order with
    | none => exact .raise _
    | some rb => exact .complete (.enc16 (place2_length hrb))
  | enc32 order => exact .onRequest fun rq => .ite (.complete (.enc32 rfl)) (.raise _)
  | gps2unix => exact .onRequest fun rq => .completeTime .gps2unix
  | unix2gps => exact .onRequest fun rq => .completeTime .unix2gps

theorem exec_next {i : Instr} {s t : State} (h : exec i s = .next t) :
    ∃ r, Delivers s.cfg i r ∧ t = s.respond r :=
  exec_deliversOnly i s t h

theorem step_of_nothing {s : State} (h : fetch s = .nothing) : step s = .next s.idle := by
  simp only [step, h]

theorem step_of_command {s : State} {i : Instr} (h : fetch s = .command i) : step s = exec i s := by
  simp only [step, h]

theorem step_of_illegal {s : State} {why : IllegalWord} (h : fetch s = .illegal why) :
    step s = raise s .illegalCommand := by
  simp only [step, h]

/-- What every step that answers can do, by cases of what the block finds to do. -/
theorem step_next {s t : State} (h : step s = .next t) :
    (s.req = none ∧ t = s.idle) ∨
    (∃ rq i r, s.req = some rq ∧ decode rq.cmd = .ok i ∧ Delivers s.cfg i r ∧ t = s.respond r) ∨
    (∃ rq why, s.req = some rq ∧ decode rq.cmd = .error why ∧ t = s.respond (.error .illegalCommand)) := by
  obtain ⟨hreq, hf⟩ | ⟨rq, i, hreq, hdec, hf⟩ | ⟨rq, why, hreq, hdec, hf⟩ := fetch_cases s
  · rw [step_of_nothing hf] at h
    cases h
    exact .inl ⟨hreq, rfl⟩
  · rw [step_of_command hf] at h
    obtain ⟨r, hr, ht⟩ := exec_next h
    exact .inr (.inl ⟨rq, i, r, hreq, hdec, hr, ht⟩)
  · rw [step_of_illegal hf] at h
    exact .inr (.inr ⟨rq, why, hreq, hdec, (raise_eq_next.mp h).symm⟩)

theorem Response.fits_error (c : Config) (e : ErrorStatus) : (Response.error e).Fits c :=
  ⟨nofun, nofun, nofun⟩

/-- R27, R69, R92. A value a decode command delivers is one the value port carries. -/
theorem Response.fits_value {c : Config} {w : Nat} {sgn : Signedness} {v : Int} (hw : w ≤ 32)
    (hv : InSignRange w sgn v) : (Response.value v).Fits c := by
  obtain ⟨hlo, hhi⟩ := hv.mem_span32 hw
  refine ⟨?_, nofun, nofun⟩
  rintro _ ⟨⟩
  exact ⟨fitsSigned_of_span32 c.ok.1 hlo hhi, hlo, hhi⟩

theorem Response.fits_bytes {c : Config} {rb : List Byte} (h : rb.length = 1 ∨ rb.length = 2 ∨ rb.length = 4) :
    (Response.bytes rb).Fits c :=
  ⟨nofun, by rintro _ ⟨⟩; exact h, nofun⟩

theorem Response.fits_time {c : Config} {t : Int} (h : FitsSigned c.timew t) : (Response.time t).Fits c :=
  ⟨nofun, nofun, by rintro _ ⟨⟩; exact h⟩

/-- Whatever a command delivers, the response ports carry. -/
theorem Delivers.fits {c : Config} {i : Instr} {r : Response} (h : Delivers c i r) : r.Fits c := by
  cases h with
  | error _ e => exact Response.fits_error c e
  | dec8 hv | dec16 hv | dec32 hv => exact Response.fits_value (by decide) hv
  | enc8 hrb => exact Response.fits_bytes (.inl hrb)
  | enc16 hrb => exact Response.fits_bytes (.inr (.inl hrb))
  | enc32 hrb => exact Response.fits_bytes (.inr (.inr hrb))
  | gps2unix ht | unix2gps ht => exact Response.fits_time ht

theorem State.inv_respond {s : State} {r : Response} (h : r.Fits s.cfg) : (s.respond r).Inv :=
  ⟨nofun, by rintro _ ⟨⟩; exact h⟩

theorem State.inv_idle {s : State} (h : s.Inv) : s.idle.Inv :=
  ⟨h.1, nofun⟩

/-- Settles O29: an idle step keeps the request, every other step leaves a response that fits its ports. -/
theorem everyStepKeepsTheInvariant : Obligations.EveryStepKeepsTheInvariant := by
  intro s t hinv h
  obtain ⟨-, rfl⟩ | ⟨rq, i, r, -, -, hr, rfl⟩ | ⟨rq, why, -, -, rfl⟩ := step_next h
  · exact State.inv_idle hinv
  · exact State.inv_respond hr.fits
  · exact State.inv_respond (Response.fits_error s.cfg .illegalCommand)

/-- Settles O16: the next state is the old one with the request's place taken by the response. -/
theorem frameOfEveryCommand : Obligations.FrameOfEveryCommand := by
  intro i s t h
  obtain ⟨r, -, rfl⟩ := exec_next h
  exact ⟨rfl, rfl, r, rfl, h⟩

/-- Settles O17, by cases of what a step does. -/
theorem noStepChangesTheConstants : Obligations.NoStepChangesTheConstants := by
  intro s t h
  obtain ⟨-, rfl⟩ | ⟨rq, i, r, -, -, -, rfl⟩ | ⟨rq, why, -, -, rfl⟩ := step_next h
  · exact State.idle_cfg s
  · exact State.respond_cfg s r
  · exact State.respond_cfg s _

theorem ErrorStatus.code_ne_zero (e : ErrorStatus) : e.code ≠ 0#3 := by
  cases e <;> decide

/-- The lanes of an encode response that hold a byte are those below RLEN. -/
theorem Response.rb_bytes_isSome {rb : List Byte} {n : Nat} (hrb : rb.length = n) (k : Nat) :
    ((Response.bytes rb).rb k).isSome = true ↔ k < n := by
  simp [Response.rb, hrb]

/-- Settles O23, by cases of what the command delivers. -/
theorem responsesCarryTheFieldsOfTheirClass : Obligations.ResponsesCarryTheFieldsOfTheirClass := by
  intro i s t r h hr
  obtain ⟨r', hdel, rfl⟩ := exec_next h
  cases hr
  cases hdel with
  | error _ e => exact ⟨fun _ => ⟨rfl, rfl, fun _ => rfl, rfl⟩, fun hok => absurd hok e.code_ne_zero⟩
  | dec8 | dec16 | dec32 => exact ⟨fun herr => absurd rfl herr, fun _ => ⟨rfl, rfl, fun _ => rfl, rfl⟩⟩
  | enc8 hrb | enc16 hrb | enc32 hrb =>
    exact ⟨fun herr => absurd rfl herr,
      fun _ => ⟨congrArg some hrb, Response.rb_bytes_isSome hrb, rfl, rfl⟩⟩
  | gps2unix | unix2gps => exact ⟨fun herr => absurd rfl herr, fun _ => ⟨rfl, rfl, rfl, fun _ => rfl⟩⟩

/-- Settles O15: with nothing pending the block idles. -/
theorem idleStepDoesNothing : Obligations.IdleStepDoesNothing := by
  intro s hreq
  have hf : fetch s = .nothing := by simp only [fetch, hreq]
  rw [step_of_nothing hf, State.idle, hreq]

/-- Settles O27: the reset state holds no record that could miss a port. -/
theorem resetMeetsTheInvariant : Obligations.ResetMeetsTheInvariant :=
  ⟨⟨nofun, nofun⟩, rfl, rfl, rfl, rfl⟩

end Sys2Proof.Machine
end

section
/-! What an answer depends on: the constants and the request fields the command reads (R20, R26, R29). -/

namespace Sys2Proof.Machine

section
variable {s₁ s₂ : State} {a b : Request} (hcfg : s₁.cfg = s₂.cfg) (ha : s₁.req = some a) (hb : s₂.req = some b)

include hcfg in
theorem complete_congr (r : Response) : complete s₁ r = complete s₂ r :=
  congrArg Host.Outcome.next (State.respond_congr hcfg r)

include hcfg in
theorem raise_congr (e : ErrorStatus) : raise s₁ e = raise s₂ e :=
  complete_congr hcfg (.error e)

include hcfg in
theorem completeTime_congr (v : Int) : completeTime s₁ v = completeTime s₂ v := by
  simp only [completeTime, hcfg, complete_congr hcfg]

include ha hb in
theorem onRequest_congr {run₁ run₂ : Request → Answer} (h : run₁ a = run₂ b) :
    onRequest s₁ run₁ = onRequest s₂ run₂ := by
  rw [onRequest_pending ha, onRequest_pending hb, h]

include hcfg in
/-- R29. Behind the length check a decode command reads the lanes only where LEN is its byte count. -/
theorem lengthCheck_congr {n : Nat} {x y : Answer} (hlen : a.len = b.len) (hxy : a.len.toNat = n → x = y) :
    (if a.len.toNat ≠ n then raise s₁ .invalidLength else x) = if b.len.toNat ≠ n then raise s₂ .invalidLength else y := by
  rw [← hlen, raise_congr hcfg]
  split
  · rfl
  · exact hxy (not_not.mp ‹_›)

theorem assemble2_congr {l m : Lanes} (h0 : l.b0 = m.b0) (h1 : l.b1 = m.b1) : assemble2 l = assemble2 m := by
  funext order
  cases order <;> simp only [assemble2, h0, h1]

include hcfg in
/-- R69. Of a request the integer operand is VAL's. -/
theorem valOperand_eq (hval : a.val = b.val) : valOperand s₁ a = valOperand s₂ b := by
  simp only [valOperand, hcfg, hval]

include hcfg in
/-- R70. Of a request the time operand is TIME's. -/
theorem timeOperand_eq (htime : a.time = b.time) : timeOperand s₁ a = timeOperand s₂ b := by
  simp only [timeOperand, hcfg, htime]

include hcfg ha hb

/-- R26. DEC8 reads LEN and, where it is 1, B[0]. -/
theorem exec_dec8_congr (hlen : a.len = b.len) (h0 : a.len.toNat = 1 → a.lanes.b0 = b.lanes.b0) (sgn : Signedness) :
    exec (.dec8 sgn) s₁ = exec (.dec8 sgn) s₂ := by
  refine onRequest_congr ha hb (lengthCheck_congr hcfg hlen fun hn => ?_)
  rw [assemble1, assemble1, h0 hn, complete_congr hcfg]

/-- R26. DEC16 reads LEN and, where it is 2, B[0] and B[1]. -/
theorem exec_dec16_congr (hlen : a.len = b.len)
    (h01 : a.len.toNat = 2 → a.lanes.b0 = b.lanes.b0 ∧ a.lanes.b1 = b.lanes.b1) (order : Endianness) (sgn : Signedness) :
    exec (.dec16 order sgn) s₁ = exec (.dec16 order sgn) s₂ := by
  refine onRequest_congr ha hb (lengthCheck_congr hcfg hlen fun hn => ?_)
  obtain ⟨h0, h1⟩ := h01 hn
  rw [assemble2_congr h0 h1]
  cases assemble2 b.lanes order with
  | none => exact raise_congr hcfg _
  | some u => exact complete_congr hcfg _

/-- R26. DEC32 reads LEN and, where it is 4, the lanes. -/
theorem exec_dec32_congr (hlen : a.len = b.len) (hlanes : a.len.toNat = 4 → a.lanes = b.lanes) (order : Endianness)
    (sgn : Signedness) : exec (.dec32 order sgn) s₁ = exec (.dec32 order sgn) s₂ := by
  refine onRequest_congr ha hb (lengthCheck_congr hcfg hlen fun hn => ?_)
  rw [hlanes hn, complete_congr hcfg]

/-- R26. ENC8 reads VAL. -/
theorem exec_enc8_congr (hval : a.val = b.val) : exec .enc8 s₁ = exec .enc8 s₂ := by
  refine onRequest_congr ha hb ?_
  simp only [valOperand_eq hcfg hval, complete_congr hcfg, raise_congr hcfg]

/-- R26. ENC16 reads VAL. -/
theorem exec_enc16_congr (hval : a.val = b.val) (order : Endianness) : exec (.enc16 order) s₁ = exec (.enc16 order) s₂ := by
  refine onRequest_congr ha hb ?_
  simp only [valOperand_eq hcfg hval, complete_congr hcfg, raise_congr hcfg]

/-- R26. ENC32 reads VAL. -/
theorem exec_enc32_congr (hval : a.val = b.val) (order : Endianness) : exec (.enc32 order) s₁ = exec (.enc32 order) s₂ := by
  refine onRequest_congr ha hb ?_
  simp only [valOperand_eq hcfg hval, complete_congr hcfg, raise_congr hcfg]

/-- R26. GPS2UNIX reads TIME. -/
theorem exec_gps2unix_congr (htime : a.time = b.time) : exec .gps2unix s₁ = exec .gps2unix s₂ := by
  refine onRequest_congr ha hb ?_
  rw [timeOperand_eq hcfg htime, hcfg, completeTime_congr hcfg]

/-- R26. UNIX2GPS reads TIME. -/
theorem exec_unix2gps_congr (htime : a.time = b.time) : exec .unix2gps s₁ = exec .unix2gps s₂ := by
  refine onRequest_congr ha hb ?_
  rw [timeOperand_eq hcfg htime, hcfg, completeTime_congr hcfg]

end

/-- A command answers alike on two blocks with the same constants and the same request. -/
theorem exec_congr {s₁ s₂ : State} {rq : Request} (hcfg : s₁.cfg = s₂.cfg) (h₁ : s₁.req = some rq)
    (h₂ : s₂.req = some rq) (i : Instr) : exec i s₁ = exec i s₂ := by
  cases i with
  | dec8 sgn => exact exec_dec8_congr hcfg h₁ h₂ rfl (fun _ => rfl) sgn
  | dec16 order sgn => exact exec_dec16_congr hcfg h₁ h₂ rfl (fun _ => ⟨rfl, rfl⟩) order sgn
  | dec32 order sgn => exact exec_dec32_congr hcfg h₁ h₂ rfl (fun _ => rfl) order sgn
  | enc8 => exact exec_enc8_congr hcfg h₁ h₂ rfl
  | enc16 order => exact exec_enc16_congr hcfg h₁ h₂ rfl order
  | enc32 order => exact exec_enc32_congr hcfg h₁ h₂ rfl order
  | gps2unix => exact exec_gps2unix_congr hcfg h₁ h₂ rfl
  | unix2gps => exact exec_unix2gps_congr hcfg h₁ h₂ rfl

/-- What the block finds to do depends on the pending request alone. -/
theorem fetch_congr {s₁ s₂ : State} (hreq : s₁.req = s₂.req) : fetch s₁ = fetch s₂ := by
  simp only [fetch, hreq]

/-- Settles O18, by cases of what the block finds to do. -/
theorem stepDependsOnRequestAndConstantsOnly : Obligations.StepDependsOnRequestAndConstantsOnly := by
  intro s₁ s₂ hcfg hreq
  have hfetch := fetch_congr hreq
  obtain ⟨-, hf⟩ | ⟨rq, i, hrq, -, hf⟩ | ⟨rq, why, -, -, hf⟩ := fetch_cases s₁
  · rw [step_of_nothing hf, step_of_nothing (hfetch ▸ hf), State.idle, State.idle, hcfg, hreq]
  · rw [step_of_command hf, step_of_command (hfetch ▸ hf), exec_congr hcfg hrq (hreq ▸ hrq)]
  · rw [step_of_illegal hf, step_of_illegal (hfetch ▸ hf), raise_congr hcfg]

/-- Settles O20, family by family. -/
theorem unreadRequestFieldsHaveNoEffect : Obligations.UnreadRequestFieldsHaveNoEffect := by
  intro s₁ s₂ a b hcfg ha hb
  exact ⟨exec_dec8_congr hcfg ha hb, exec_dec16_congr hcfg ha hb, exec_dec32_congr hcfg ha hb,
    fun hval => ⟨exec_enc8_congr hcfg ha hb hval,
      fun order => ⟨exec_enc16_congr hcfg ha hb hval order, exec_enc32_congr hcfg ha hb hval order⟩⟩,
    fun htime => ⟨exec_gps2unix_congr hcfg ha hb htime, exec_unix2gps_congr hcfg ha hb htime⟩⟩

end Sys2Proof.Machine
end

section
/-! The ports (R27, R28) and the configurations (R24, R25). -/

namespace Sys2Proof.Machine

/-- `sext_N` is the balanced residue modulo 2^N of Lean's library. -/
theorem sext_eq_bmod {n : Nat} (hn : 1 ≤ n) (v : Int) : sext n v = v.bmod (2 ^ n) := by
  have hhalf : 2 * 2 ^ (n - 1) = 2 ^ n := mul_pow_sub_one (by omega) 2
  have hmid : (((2 ^ n : Nat) : Int) + 1) / 2 = ((2 ^ (n - 1) : Nat) : Int) := by omega
  simp only [sext, Int.bmod_def, hmid]
  push_cast
  rfl

/-- The range of a port is the range of balanced residues. -/
theorem fitsSigned_iff_balanced {n : Nat} (hn : 1 ≤ n) (v : Int) :
    FitsSigned n v ↔ -(((2 ^ n : Nat) : Int) / 2) ≤ v ∧ v < (((2 ^ n : Nat) : Int) + 1) / 2 := by
  have hhalf : (2 * 2 ^ (n - 1) : Int) = 2 ^ n := mul_pow_sub_one (by omega) 2
  push_cast
  omega

/-- The value read from a port is the one integer in its range congruent to what is put on it. -/
theorem sext_eq_iff {n : Nat} (hn : 1 ≤ n) {v x : Int} : sext n v = x ↔ FitsSigned n x ∧ (2 ^ n : Int) ∣ x - v := by
  rw [sext_eq_bmod hn, Int.bmod_eq_iff (Nat.two_pow_pos n), fitsSigned_iff_balanced hn, and_assoc]
  push_cast
  rfl

/-- Settles O41: the value read is the one integer of the range in its residue class, so a value in the range is its own. -/
theorem portsCarryTheirSignedValue : Obligations.PortsCarryTheirSignedValue := by
  intro n v hn
  obtain ⟨hfits, hcongr⟩ := (sext_eq_iff hn).mp (rfl : sext n v = sext n v)
  exact ⟨hfits, hcongr, fun hv => (sext_eq_iff hn).mpr ⟨hv, by simp⟩⟩

theorem leapAscending_iff_isChain (l : List Nat) : leapAscending l = true ↔ l.IsChain (· ≤ ·) := by
  induction l with
  | nil => simp [leapAscending]
  | cons a rest ih =>
    cases rest with
    | nil => simp [leapAscending]
    | cons b rest => simp [leapAscending, ih]

theorem leapGapped_iff_isChain (l : List Nat) : leapGapped l = true ↔ l.IsChain (· + 2 ≤ ·) := by
  induction l with
  | nil => simp [leapGapped]
  | cons a rest ih =>
    cases rest with
    | nil => simp [leapGapped]
    | cons b rest => simp [leapGapped, ih]

theorem leapWord_eq_getElem {leap : List Nat} {i : Nat} (hi : i < leap.length) : leapWord leap i = (leap[i] : Int) := by
  simp [leapWord, hi]

section
variable {leap : List Nat} (hlen : leap.length = 16)
include hlen

/-- A relation holds of all neighbours in a table when it holds of each word and the next. -/
theorem isChain_iff_leapWord {R : Nat → Nat → Prop} {R' : Int → Int → Prop} (hR : ∀ m n : Nat, R m n ↔ R' m n) :
    leap.IsChain R ↔ ∀ i, i < 15 → R' (leapWord leap i) (leapWord leap (i + 1)) := by
  rw [List.isChain_iff_getElem]
  constructor
  · intro h i hi
    rw [leapWord_eq_getElem (by omega), leapWord_eq_getElem (by omega), ← hR]
    exact h i (by omega)
  · intro h i hi
    rw [hR, ← leapWord_eq_getElem, ← leapWord_eq_getElem]
    exact h i (by omega)

/-- R24 (b), word by word. -/
theorem leapAscending_iff : leapAscending leap = true ↔ ∀ i, i < 15 → leapWord leap i ≤ leapWord leap (i + 1) := by
  rw [leapAscending_iff_isChain, isChain_iff_leapWord hlen fun _ _ => Int.ofNat_le.symm]

/-- R24 (c), word by word. -/
theorem leapInRom_iff {romw : Nat} :
    leapInRom romw leap = true ↔ ∀ i, i < 16 → 0 ≤ leapWord leap i ∧ leapWord leap i < 2 ^ romw := by
  simp only [leapInRom, List.all_eq_true, decide_eq_true_eq, List.forall_mem_iff_getElem, hlen]
  refine forall₂_congr fun i hi => ?_
  rw [leapWord_eq_getElem (by omega)]
  exact_mod_cast (and_iff_right (Nat.zero_le _)).symm

/-- R24 (d), first half. -/
theorem leapStartsLate_iff : leapStartsLate leap = true ↔ 1 ≤ leapWord leap 0 := by
  cases leap with
  | nil => cases hlen
  | cons a rest => simp [leapStartsLate, leapWord]

/-- R24 (d), second half, word by word. -/
theorem leapGapped_iff : leapGapped leap = true ↔ ∀ i, i < 15 → 2 ≤ leapWord leap (i + 1) - leapWord leap i := by
  rw [leapGapped_iff_isChain, isChain_iff_leapWord (R' := fun x y => 2 ≤ y - x) hlen fun m n => by omega]

end

/-- R24 (a) to (d) and R27, word by word. -/
theorem configOk_iff {valw romw : Nat} {leap : List Nat} :
    ConfigOk valw romw leap ↔
      33 ≤ valw ∧ leap.length = 16 ∧ (∀ i, i < 15 → leapWord leap i ≤ leapWord leap (i + 1)) ∧
        (∀ i, i < 16 → 0 ≤ leapWord leap i ∧ leapWord leap i < 2 ^ romw) ∧ 1 ≤ leapWord leap 0 ∧
        (∀ i, i < 15 → 2 ≤ leapWord leap (i + 1) - leapWord leap i) := by
  refine and_congr_right fun _ => and_congr_right fun (hlen : leap.length = 16) => ?_
  rw [leapAscending_iff hlen, leapInRom_iff hlen, leapStartsLate_iff hlen, leapGapped_iff hlen]

theorem configure_ne_none_iff {valw timew romw : Nat} {leap : List Nat} :
    Config.configure valw timew romw leap ≠ none ↔ ConfigOk valw romw leap := by
  simp [Config.configure]

theorem configure_eq_some {valw timew romw : Nat} {leap : List Nat} {c : Config}
    (h : Config.configure valw timew romw leap = some c) :
    c.valw = valw ∧ c.timew = timew ∧ c.romw = romw ∧ c.leap = leap := by
  unfold Config.configure at h
  split at h
  · cases h
    exact ⟨rfl, rfl, rfl, rfl⟩
  · cases h

/-- Settles O59: the proof a configuration carries is R24 word by word. -/
theorem configurationsAreExactlyTheAdmissible : Obligations.ConfigurationsAreExactlyTheAdmissible :=
  ⟨fun _ _ _ _ => configure_ne_none_iff.trans configOk_iff, fun _ _ _ _ _ => configure_eq_some,
    fun s => configOk_iff.mp s.cfg.ok⟩

/-- Settles O28: the default configuration carries the proof; the gaps are a finite check of its sixteen words. -/
theorem defaultTableIsAdmissible : Obligations.DefaultTableIsAdmissible := by
  refine ⟨Config.default.ok, rfl, ?_, ⟨0, ?_⟩, rfl, rfl⟩
  · decide
  · decide

end Sys2Proof.Machine
end

section
/-! Which commands answer, and that a transaction depends on nothing an earlier one leaves behind (R20, R52, R184). -/

namespace Sys2Proof.Machine

/-- The answer is a completed transaction: a next state with one response and the same constants. -/
def Completes (s : State) (a : Answer) : Prop :=
  ∃ r, a = answered s r

namespace Completes
variable {s : State}

theorem complete (r : Response) : Completes s (complete s r) := ⟨r, rfl⟩

theorem raise (e : ErrorStatus) : Completes s (raise s e) := ⟨.error e, rfl⟩

theorem ite {c : Prop} [Decidable c] {a b : Answer} (ha : Completes s a) (hb : Completes s b) :
    Completes s (if c then a else b) := by
  split
  · exact ha
  · exact hb

theorem onRequest {rq : Request} {run : Request → Answer} (hreq : s.req = some rq) (hrun : Completes s (run rq)) :
    Completes s (onRequest s run) := by
  rwa [onRequest_pending hreq]

theorem completeTime {v : Int} (hv : FitsSigned s.cfg.timew v) : Completes s (completeTime s v) :=
  ⟨.time v, completeTime_fits hv⟩

end Completes

section
variable {s : State} {rq : Request} (hreq : s.req = some rq)
include hreq

/-- A decode or encode command always answers. -/
theorem exec_completes_of_byteCount_ne_zero {i : Instr} (hbcu : byteCount i ≠ 0) : Completes s (exec i s) := by
  cases i with
  | dec8 | dec32 => exact .onRequest hreq (.ite (.raise _) (.complete _))
  | dec16 order sgn =>
    refine .onRequest hreq (.ite (.raise _) ?_)
    cases assemble2 rq.lanes order with
    | none => exact .raise _
    | some u => exact .complete _
  | enc8 | enc32 => exact .onRequest hreq (.ite (.complete _) (.raise _))
  | enc16 order =>
    refine .onRequest hreq (.ite ?_ (.raise _))
    cases place2 (octet (valOperand s rq) 8) (octet (valOperand s rq) 0) order with
    | none => exact .raise _
    | some rb => exact .complete _
  | gps2unix | unix2gps => exact absurd rfl hbcu

/-- R184. The command of a request in the host's domain answers. -/
theorem exec_completes {i : Instr} (hdec : decode rq.cmd = .ok i) (hdom : rq.InDomain s.cfg) : Completes s (exec i s) := by
  obtain ⟨hgps, hunix⟩ := hdom
  cases i with
  | gps2unix => exact .onRequest hreq (.completeTime (hgps hdec))
  | unix2gps => exact .onRequest hreq (.completeTime (hunix hdec))
  | dec8 | enc8 | dec16 | enc16 | dec32 | enc32 => exact exec_completes_of_byteCount_ne_zero hreq (by simp [byteCount])

/-- R184. A request in the host's domain, legal word or not, is answered. -/
theorem step_completes (hdom : rq.InDomain s.cfg) : Completes s (step s) := by
  obtain ⟨hnone, -⟩ | ⟨rq', i, hrq', hdec, hf⟩ | ⟨-, why, -, -, hf⟩ := fetch_cases s
  · rw [hreq] at hnone
    cases hnone
  · cases hreq.symm.trans hrq'
    rw [step_of_command hf]
    exact exec_completes hreq hdec hdom
  · rw [step_of_illegal hf]
    exact .raise _

end

/-- R184. Presenting a request in the host's domain completes a transaction. -/
theorem transact_completes {s : State} {rq : Request} (hdom : rq.InDomain s.cfg) : Completes s (transact s rq) :=
  step_completes (State.present_req s rq) hdom

/-- R20. Of the state it meets, a transaction depends on the constants alone. -/
theorem transact_congr {s₁ s₂ : State} (hcfg : s₁.cfg = s₂.cfg) (rq : Request) : transact s₁ rq = transact s₂ rq :=
  stepDependsOnRequestAndConstantsOnly _ _ hcfg rfl

/-- Settles O19: each request is answered, and the response of the transaction before it does not reach its own. -/
theorem commandsCommuteAndRepeat : Obligations.CommandsCommuteAndRepeat := by
  intro s a b ha hb
  obtain ⟨ra, hra⟩ := transact_completes ha
  obtain ⟨rb, hrb⟩ := transact_completes hb
  have after (r : Response) (rq : Request) : transact { s with req := none, rsp := some r } rq = transact s rq :=
    transact_congr rfl rq
  exact ⟨ra, rb, hra, (after ra b).trans hrb, hrb, (after rb a).trans hra, (after ra a).trans hra⟩

end Sys2Proof.Machine
end

section
/-! The endianness multiplexer as weighted sums (R90), and what mixed readings of the same lanes see (R46, R47). -/

namespace Sys2Proof.Machine

theorem joinPair_eq (msb lsb : Byte) : joinPair msb lsb = 256 * msb.toNat + lsb.toNat := by
  rw [joinPair, ← Nat.shiftLeft_add_eq_or_of_lt lsb.isLt, Nat.shiftLeft_eq, Nat.mul_comm]

/-- R47. A four-byte pattern is two two-byte ones, each of two neighbours in the order's reading. -/
theorem assemble4_eq_joinPair (l : Lanes) (order : Endianness) :
    assemble4 l order =
      65536 * joinPair (l.lane (orderPerm order 0)) (l.lane (orderPerm order 1)) +
        joinPair (l.lane (orderPerm order 2)) (l.lane (orderPerm order 3)) := by
  have hor (p q : Nat) (hq : q < 2 ^ 16) : 65536 * p + q = p <<< 16 ||| q := by
    rw [← Nat.shiftLeft_add_eq_or_of_lt hq, Nat.shiftLeft_eq, Nat.mul_comm]
  rw [hor _ _ (joinPair_lt _ _)]
  simp only [assemble4, joinPair, Nat.shiftLeft_or_distrib, ← Nat.shiftLeft_add, Nat.or_assoc]

/-- R47 (a). The sign bit of a two-byte pattern is bit 7 of its high byte. -/
theorem testBit_joinPair_sign (msb lsb : Byte) : (joinPair msb lsb).testBit 15 = msb.getLsbD 7 := by
  rw [joinPair_eq]
  exact Nat.testBit_two_pow_mul_add msb.toNat lsb.isLt 15

/-- R47 (a). The sign bit of a four-byte pattern is bit 7 of the lane that supplies octet 1. -/
theorem testBit_assemble4_sign (l : Lanes) (order : Endianness) :
    (assemble4 l order).testBit 31 = (l.lane (orderPerm order 0)).getLsbD 7 := by
  rw [assemble4_eq_joinPair, ← testBit_joinPair_sign]
  exact Nat.testBit_two_pow_mul_add _ (joinPair_lt _ _) 31

/-- Settles O36, order by order and lane by lane. -/
theorem everyOrderIsItsOwnInverse : Obligations.EveryOrderIsItsOwnInverse := by
  intro order
  cases order with
  | bigEndian => exact fun _ => rfl
  | midBigEndian | littleEndian | midLittleEndian => decide

/-- Settles O37: under each order the pattern is the pair of two-byte patterns that its permutation picks. -/
theorem mixedReadingsOfTheSameLanes : Obligations.MixedReadingsOfTheSameLanes := by
  intro l
  refine ⟨⟨testBit_assemble4_sign l _, testBit_assemble4_sign l _, testBit_assemble4_sign l _, testBit_assemble4_sign l _,
    ?_, ?_⟩, ⟨rfl, rfl⟩, ?_⟩
  · rintro _ ⟨⟩
    exact testBit_joinPair_sign l.b0 l.b1
  · rintro _ ⟨⟩
    exact testBit_joinPair_sign l.b1 l.b0
  · rintro _ _ _ _ ⟨⟩ ⟨⟩ ⟨⟩ ⟨⟩
    exact ⟨assemble4_eq_joinPair l .bigEndian, assemble4_eq_joinPair l .midLittleEndian,
      assemble4_eq_joinPair l .midBigEndian, assemble4_eq_joinPair l .littleEndian⟩

end Sys2Proof.Machine
end

section
/-! The command word (R60 to R67): its fields and the codes in them, decoding against encoding, the rows of the opcode map, and
what a step makes of the pending word. -/

namespace Sys2Proof

@[simp] theorem endOfCode_codeOfEnd (order : Endianness) : endOfCode (codeOfEnd order) = order := by
  cases order <;> rfl

@[simp] theorem sgnOfCode_codeOfSgn (sgn : Signedness) : sgnOfCode (codeOfSgn sgn) = sgn := by
  cases sgn <;> rfl

@[simp] theorem codeOfEnd_endOfCode (e : BitVec 2) : codeOfEnd (endOfCode e) = e := by
  revert e; decide

@[simp] theorem codeOfSgn_sgnOfCode (c : BitVec 1) : codeOfSgn (sgnOfCode c) = c := by
  revert c; decide

section
variable (op : BitVec 3) (e : BitVec 2) (c : BitVec 1)

@[simp] theorem rsvField_wordOfFields : rsvField (wordOfFields op e c) = 0b00#2 := by
  revert op e c; decide

@[simp] theorem opField_wordOfFields : opField (wordOfFields op e c) = op := by
  revert op e c; decide

@[simp] theorem endField_wordOfFields : endField (wordOfFields op e c) = e := by
  revert op e c; decide

@[simp] theorem sgnField_wordOfFields : sgnField (wordOfFields op e c) = c := by
  revert op e c; decide

end

/-- R61. A word with RSV = 0b00 is put together from its other three fields. -/
theorem wordOfFields_fields {w : Byte} (h : rsvField w = 0b00#2) :
    wordOfFields (opField w) (endField w) (sgnField w) = w := by
  revert w; decide

theorem requireNoOrder_eq_ok {w : Byte} {rest : Except IllegalWord Instr} {i : Instr} :
    requireNoOrder w rest = .ok i ↔ endField w = 0b00#2 ∧ rest = .ok i := by
  simp [requireNoOrder, ite_eq_iff]

theorem requireNoSign_eq_ok {w : Byte} {rest : Except IllegalWord Instr} {i : Instr} :
    requireNoSign w rest = .ok i ↔ sgnField w = 0b0#1 ∧ rest = .ok i := by
  simp [requireNoSign, ite_eq_iff]

theorem decode_eq_ok {w : Byte} {i : Instr} : decode w = .ok i ↔ rsvField w = 0b00#2 ∧ decodeOp w = .ok i := by
  simp [decode, ite_eq_iff]

/-- An OP code is its three bits, high bit first. -/
theorem opcode_eq_bits {op : BitVec 3} {x y z : Bool} (hx : op.getLsbD 2 = x) (hy : op.getLsbD 1 = y)
    (hz : op.getLsbD 0 = z) : op = BitVec.ofBool x ++ BitVec.ofBool y ++ BitVec.ofBool z := by
  subst hx hy hz
  revert op; decide

/-- Every command decodes from its own word: the word's fields are the codes it was put together from. -/
theorem decode_encode (i : Instr) : decode (encode i) = .ok i := by
  cases i <;> simp [decode_eq_ok, encode, decodeOp, requireNoOrder_eq_ok, requireNoSign_eq_ok]

/-- The word of the command a word's fields select has these fields. -/
theorem encode_eq_wordOfFields {w : Byte} {i : Instr} (h : decodeOp w = .ok i) :
    encode i = wordOfFields (opField w) (endField w) (sgnField w) := by
  unfold decodeOp at h
  split at h <;> rename_i hx hy hz <;> rw [opcode_eq_bits hx hy hz] <;>
    simp only [requireNoOrder_eq_ok, requireNoSign_eq_ok, Except.ok.injEq] at h
  case h_1 =>
    obtain ⟨he, rfl⟩ := h
    simp [encode, he]
  case h_2 | h_7 | h_8 =>
    obtain ⟨he, hs, rfl⟩ := h
    simp [encode, he, hs]
  case h_3 | h_5 =>
    subst h
    simp [encode]
  case h_4 | h_6 =>
    obtain ⟨hs, rfl⟩ := h
    simp [encode, hs]

theorem decode_eq_ok_iff {w : Byte} {i : Instr} : decode w = .ok i ↔ w = encode i := by
  constructor
  · intro h
    obtain ⟨hrsv, hop⟩ := decode_eq_ok.mp h
    rw [encode_eq_wordOfFields hop, wordOfFields_fields hrsv]
  · rintro rfl
    exact decode_encode i

theorem legalWord_iff {w : Byte} : legalWord w = true ↔ ∃ i, w = encode i := by
  simp only [← decode_eq_ok_iff, legalWord]
  cases decode w <;> simp

/-- R64. The word of a command matches its own row of the opcode map and no other, for every command. -/
theorem encoding_statement (i : Instr) : Laws.Encoding.Statement i := by
  cases i with
  | dec8 sgn => exact Laws.Encoding.dec8 sgn
  | enc8 => exact Laws.Encoding.enc8
  | dec16 order sgn => exact Laws.Encoding.dec16 order sgn
  | enc16 order => exact Laws.Encoding.enc16 order
  | dec32 order sgn => exact Laws.Encoding.dec32 order sgn
  | enc32 order => exact Laws.Encoding.enc32 order
  | gps2unix => exact Laws.Encoding.gps2unix
  | unix2gps => exact Laws.Encoding.unix2gps

/-- R66. No row of the opcode map selects an illegal word: a finite check over the words and the rows. -/
theorem legalWord_of_selects : ∀ {w : Byte}, ∀ {r}, r ∈ opcodeMap → r.selects w = true → legalWord w = true := by
  decide

theorem selects_iff {w : Byte} {r : OpcodeRow} (hr : r ∈ opcodeMap) :
    r.selects w = true ↔ ∃ i, decode w = .ok i ∧ rowOf i = r := by
  constructor
  · intro h
    obtain ⟨i, rfl⟩ := legalWord_iff.mp (legalWord_of_selects hr h)
    exact ⟨i, decode_encode i, (((encoding_statement i).2 r hr).mp h).symm⟩
  · rintro ⟨i, hi, rfl⟩
    rw [decode_eq_ok_iff.mp hi]
    exact ((encoding_statement i).2 _ hr).mpr rfl

/-- R64. The rows that select a word: its command's own row where it is legal, and none where it is not. -/
theorem filter_selects (w : Byte) :
    (opcodeMap.filter fun r => r.selects w).length = if legalWord w then 1 else 0 := by
  split
  next hw =>
    obtain ⟨i, rfl⟩ := legalWord_iff.mp hw
    obtain ⟨hmem, hown⟩ := encoding_statement i
    have hfilter : opcodeMap.filter (fun r => r.selects (encode i)) = opcodeMap.filter (· == rowOf i) :=
      List.filter_congr fun r hr => Bool.eq_iff_iff.mpr ((hown r hr).trans beq_iff_eq.symm)
    rw [hfilter, ← List.count_eq_length_filter]
    exact List.count_eq_one_of_mem (by decide) hmem
  next hw =>
    rw [List.length_eq_zero_iff, List.filter_eq_nil_iff]
    exact fun r hr hsel => hw (legalWord_of_selects hr hsel)

/-- R66. A word is illegal exactly when it matches no row of the opcode map. -/
theorem legalWord_eq_false_iff {w : Byte} : legalWord w = false ↔ ∀ r ∈ opcodeMap, w &&& r.mask ≠ r.pattern := by
  constructor
  · intro hw r hr hmatch
    rw [legalWord_of_selects hr (beq_iff_eq.mpr hmatch)] at hw
    cases hw
  · intro hnone
    refine Bool.eq_false_iff.mpr fun hw => ?_
    obtain ⟨i, rfl⟩ := legalWord_iff.mp hw
    obtain ⟨hmem, hown⟩ := encoding_statement i
    exact hnone _ hmem (beq_iff_eq.mp ((hown _ hmem).mpr rfl))

end Sys2Proof

namespace Sys2Proof.Machine

section
variable {s : State} {rq : Request} (hreq : s.req = some rq)
include hreq

/-- A pending word that decodes is run. -/
theorem step_of_decode_ok {i : Instr} (hdec : decode rq.cmd = .ok i) : step s = exec i s :=
  step_of_command (by simp only [fetch, hreq, hdec])

/-- R151. A pending word that selects no command is reported. -/
theorem step_of_illegalWord (hw : legalWord rq.cmd = false) : step s = raise s .illegalCommand := by
  cases hdec : decode rq.cmd with
  | ok i => simp [legalWord, hdec] at hw
  | error why => exact step_of_illegal (why := why) (by simp only [fetch, hreq, hdec])

end

/-- R154. No command answers IllegalCommand. -/
theorem exec_ne_illegalCommand (i : Instr) (s : State) : exec i s ≠ answered s (.error .illegalCommand) := by
  intro h
  cases i with
  | dec8 | dec32 =>
    obtain ⟨rq, -, h⟩ := onRequest_next h
    split at h
    · cases raise_eq_answered.mp h
    · cases complete_eq_answered.mp h
  | dec16 =>
    obtain ⟨rq, -, h⟩ := onRequest_next h
    split at h
    · cases raise_eq_answered.mp h
    · split at h
      · cases raise_eq_answered.mp h
      · cases complete_eq_answered.mp h
  | enc8 | enc32 =>
    obtain ⟨rq, -, h⟩ := onRequest_next h
    dsimp only at h
    split at h
    · cases complete_eq_answered.mp h
    · cases raise_eq_answered.mp h
  | enc16 =>
    obtain ⟨rq, -, h⟩ := onRequest_next h
    dsimp only at h
    split at h
    · split at h
      · cases raise_eq_answered.mp h
      · cases complete_eq_answered.mp h
    · cases raise_eq_answered.mp h
  | gps2unix | unix2gps =>
    obtain ⟨rq, -, h⟩ := onRequest_next h
    obtain ⟨-, h⟩ := completeTime_next h
    cases h

/-- R66, R151. A pending word is answered IllegalCommand exactly when it is illegal. -/
theorem step_eq_illegalCommand_iff {s : State} {rq : Request} (hreq : s.req = some rq) :
    step s = answered s (.error .illegalCommand) ↔ legalWord rq.cmd = false := by
  constructor
  · intro h
    refine Bool.eq_false_iff.mpr fun hw => ?_
    obtain ⟨i, hi⟩ := legalWord_iff.mp hw
    rw [step_of_decode_ok hreq (decode_eq_ok_iff.mpr hi)] at h
    exact exec_ne_illegalCommand i s h
  · exact step_of_illegalWord hreq

/-- Settles O9: a word decodes to a command exactly when it is the command's word. -/
theorem decodeEncodeRoundTrip : Obligations.DecodeEncodeRoundTrip :=
  ⟨decode_encode, fun _ _ h => (decode_eq_ok_iff.mp h).symm,
    fun _ _ _ hreq hcmd => step_of_decode_ok hreq (decode_eq_ok_iff.mpr hcmd)⟩

/-- Settles O12: the words that match no row are the illegal ones. -/
theorem illegalWordsAnswerIllegalCommand : Obligations.IllegalWordsAnswerIllegalCommand :=
  fun _ _ hreq => (step_eq_illegalCommand_iff hreq).trans legalWord_eq_false_iff

theorem requestWithWord_cmd (pending : Option Request) (w : Byte) : (requestWithWord pending w).cmd = w := by
  cases pending <;> rfl

/-- Settles O10: the word that withFetchWord puts in place is the next one decoded. -/
theorem stepRunsTheDecodedCommand : Obligations.StepRunsTheDecodedCommand := by
  refine ⟨fun _ _ _ hreq => step_of_decode_ok hreq, fun s i => step_of_decode_ok (State.withFetchWord_req s _ _) ?_⟩
  rw [requestWithWord_cmd, BitVec.ofNat_toNat, BitVec.setWidth_eq, decode_encode]

/-- Settles O11: the fields of each of the eight words are the codes of its command. -/
theorem writtenOutWordsDecode : Obligations.WrittenOutWordsDecode := by
  simp only [Obligations.WrittenOutWordsDecode, decode_eq_ok_iff]
  decide

/-- Settles O13: the 29 words are those of the commands, and below 0x40 the 35 are the rest. -/
theorem twentyNineWordsAreLegal : Obligations.TwentyNineWordsAreLegal := by
  refine ⟨fun w => ⟨fun hw => ?_, ?_⟩, fun w => ?_, fun s rq => step_eq_illegalCommand_iff⟩
  · obtain ⟨i, rfl⟩ := legalWord_iff.mp hw
    cases i with
    | dec8 sgn => cases sgn <;> decide
    | enc8 | gps2unix | unix2gps => decide
    | dec16 order sgn | dec32 order sgn => cases order <;> cases sgn <;> decide
    | enc16 order | enc32 order => cases order <;> decide
  · revert w; decide
  · by_cases hrsv : rsvField w = 0b00#2
    · rw [← wordOfFields_fields hrsv]
      generalize opField w = op, endField w = e, sgnField w = c
      revert op e c; decide
    · have hill : legalWord w = false := by simp [legalWord, decode, hrsv]
      exact iff_of_true hill (.inl hrsv)

/-- Settles O14: a row selects the words of its own commands, and no two rows select one word. -/
theorem opcodeRowsAreDisjoint : Obligations.OpcodeRowsAreDisjoint :=
  fun w => ⟨fun _ hr => beq_iff_eq.symm.trans (selects_iff hr), filter_selects w⟩

theorem Response.statusCode_lt_five (r : Response) : r.statusCode.toNat < 5 := by
  cases r with
  | value | bytes | time => exact Nat.zero_lt_succ 4
  | error e => cases e <;> decide

/-- Settles O24: the codes as defined, and the bound by cases of the response. -/
theorem statusCodesAreZeroToFour : Obligations.StatusCodesAreZeroToFour :=
  ⟨fun _ => rfl, fun _ => rfl, fun _ => rfl, rfl, rfl, rfl, rfl, Response.statusCode_lt_five⟩

end Sys2Proof.Machine
end

section
/-! The hexadecimal text form (R74 to R77): its digits, reading and writing pairs of them, and what a decode call comes to whose
text does not read. -/

namespace Sys2Proof.Machine

theorem hexVal_lt {c : Char} {n : Nat} (h : hexVal c = some n) : n < 16 := by
  unfold hexVal at h
  split_ifs at h <;> cases h <;> omega

/-- R74. A character is told apart from the digits by its code. -/
theorem hexVal_ne_none_iff (c : Char) : hexVal c ≠ none ↔ c ∈ "0123456789abcdefABCDEF".toList := by
  have hcode : c ∈ "0123456789abcdefABCDEF".toList ↔ c.toNat ∈ "0123456789abcdefABCDEF".toList.map Char.toNat :=
    (List.mem_map_of_injective fun _ _ => Char.toNat_inj.mp).symm
  have hcodes : "0123456789abcdefABCDEF".toList.map Char.toNat =
      [48, 49, 50, 51, 52, 53, 54, 55, 56, 57, 97, 98, 99, 100, 101, 102, 65, 66, 67, 68, 69, 70] := by decide
  rw [hcode, hcodes]
  simp only [List.mem_cons, List.not_mem_nil]
  unfold hexVal
  split_ifs <;> simp <;> omega

/-- R74. The digits have the values 0 to 15 in order: a finite check of the sixteen of them. -/
theorem hexVal_digit {k : Nat} {c : Char} (h : "0123456789abcdef".toList[k]? = some c) : hexVal c = some k := by
  obtain ⟨hk, rfl⟩ := List.getElem?_eq_some_iff.mp h
  have hdigits : ∀ k, ∀ hk : k < "0123456789abcdef".toList.length, hexVal "0123456789abcdef".toList[k] = some k := by
    decide
  exact hdigits k hk

/-- R74. A capital digit has the value of its lower-case form, 32 codes above it; no other character changes its value. -/
theorem hexVal_toLower (c : Char) : hexVal c.toLower = hexVal c := by
  by_cases hc : c.isUpper
  · have hcode : 65 ≤ c.toNat ∧ c.toNat ≤ 90 := by
      simpa [Char.isUpper, UInt32.le_iff_toNat_le] using hc
    have hlower : c.toLower.toNat = c.toNat + 32 := by
      rw [Char.toLower_eq_of_isUpper hc, Char.toNat_ofNat, if_pos (.inl (by omega))]
    unfold hexVal
    rw [hlower]
    by_cases hdigit : c.toNat ≤ 70
    · rw [if_neg (by omega), if_pos (by omega), if_neg (by omega), if_neg (by omega), if_pos (by omega)]
      exact congrArg some (by omega)
    · rw [if_neg (by omega), if_neg (by omega), if_neg (by omega), if_neg (by omega), if_neg (by omega),
        if_neg (by omega)]
  · rw [Char.toLower_eq_of_not_isUpper hc]

/-- R74. The text holds the bytes: two characters a byte, and the values of the two digits make the byte, high digit first. -/
def HoldsBytes (h : Text) (bs : List Byte) : Prop :=
  h.length = 2 * bs.length ∧ ∀ k b, bs[k]? = some b →
    ∃ hi lo, h[2 * k]?.bind hexVal = some hi ∧ h[2 * k + 1]?.bind hexVal = some lo ∧ b.toNat = 16 * hi + lo

theorem holdsBytes_cons {x y : Char} {h : Text} {b : Byte} {bs : List Byte} :
    HoldsBytes (x :: y :: h) (b :: bs) ↔
      (∃ hi lo, hexVal x = some hi ∧ hexVal y = some lo ∧ b.toNat = 16 * hi + lo) ∧ HoldsBytes h bs := by
  constructor
  · rintro ⟨hlen, hbytes⟩
    refine ⟨by simpa using hbytes 0 b rfl, by simpa [Nat.mul_add] using hlen, fun k c hc => ?_⟩
    simpa [Nat.mul_add] using hbytes (k + 1) c hc
  · rintro ⟨hhead, hlen, hbytes⟩
    refine ⟨by simpa [Nat.mul_add] using hlen, fun k c hc => ?_⟩
    cases k with
    | zero => cases hc; simpa using hhead
    | succ k => simpa [Nat.mul_add] using hbytes k c hc

/-- A text reads as a byte and more exactly where its first pair of digits makes the byte and the rest reads. -/
theorem hexParse_cons_eq_some {x y : Char} {h : Text} {bs : List Byte} :
    hexParse (x :: y :: h) = some bs ↔
      ∃ b bs', bs = b :: bs' ∧ (∃ hi lo, hexVal x = some hi ∧ hexVal y = some lo ∧ b.toNat = 16 * hi + lo) ∧
        hexParse h = some bs' := by
  rw [hexParse]
  constructor
  · intro hp
    split at hp
    next hi lo bs' hx hy hrest =>
      cases hp
      have := hexVal_lt hx
      have := hexVal_lt hy
      exact ⟨_, bs', rfl, ⟨hi, lo, hx, hy, Nat.mod_eq_of_lt (by omega)⟩, hrest⟩
    next => cases hp
  · rintro ⟨b, bs', rfl, ⟨hi, lo, hx, hy, hb⟩, hrest⟩
    simp [hx, hy, hrest, ← hb]

/-- R74. Reading succeeds exactly with the bytes the text holds. -/
theorem hexParse_eq_some_iff (h : Text) (bs : List Byte) : hexParse h = some bs ↔ HoldsBytes h bs := by
  induction h using List.twoStepInduction generalizing bs with
  | nil => cases bs <;> simp [hexParse, HoldsBytes]
  | singleton c => simp [hexParse, HoldsBytes]; omega
  | cons_cons x y h ih _ =>
    rw [hexParse_cons_eq_some]
    cases bs with
    | nil => simp [HoldsBytes]
    | cons b bs => simp [holdsBytes_cons, ih]

/-- R77. A text reads only where every character of it is a digit. -/
theorem hexVal_ne_none_of_mem {h : Text} {bs : List Byte} (hp : hexParse h = some bs) : ∀ c ∈ h, hexVal c ≠ none := by
  induction h using List.twoStepInduction generalizing bs with
  | nil => nofun
  | singleton c => cases hp
  | cons_cons x y h ih _ =>
    obtain ⟨b, bs', -, ⟨hi, lo, hx, hy, -⟩, hrest⟩ := hexParse_cons_eq_some.mp hp
    simpa [hx, hy] using ih hrest

theorem hexParse_map_toLower (h : Text) : hexParse (h.map Char.toLower) = hexParse h := by
  induction h using List.twoStepInduction with
  | nil => rfl
  | singleton c => rfl
  | cons_cons x y h ih _ => simp only [List.map_cons, hexParse, hexVal_toLower, ih]

/-- Settles O52, pair by pair of the text; the digits by their codes. -/
theorem hexParseReadsPairsOfDigits : Obligations.HexParseReadsPairsOfDigits :=
  ⟨hexParse_eq_some_iff, hexVal_ne_none_iff, fun _ _ => hexVal_digit, hexParse_map_toLower⟩

theorem hexVal_hexDigit {n : Nat} (hn : n < 16) : hexVal (hexDigit n) = some n := by
  revert n; decide

theorem hexDigit_mem {n : Nat} (hn : n < 16) : hexDigit n ∈ "0123456789abcdef".toList := by
  revert n; decide

theorem hexRender_length (bs : List Byte) : (hexRender bs).length = 2 * bs.length := by
  induction bs with
  | nil => rfl
  | cons b bs ih => simp [hexRender, ih, Nat.mul_add]

theorem hexRender_mem (bs : List Byte) : ∀ c ∈ hexRender bs, c ∈ "0123456789abcdef".toList := by
  induction bs with
  | nil => nofun
  | cons b bs ih =>
    simp only [hexRender, List.forall_mem_cons]
    exact ⟨hexDigit_mem (Nat.div_lt_of_lt_mul b.isLt), hexDigit_mem (Nat.mod_lt _ (by decide)), ih⟩

/-- R75. The two digits of a byte make the byte again. -/
theorem hexParse_hexRender (bs : List Byte) : hexParse (hexRender bs) = some bs := by
  induction bs with
  | nil => rfl
  | cons b bs ih =>
    exact hexParse_cons_eq_some.mpr ⟨b, bs, rfl,
      ⟨_, _, hexVal_hexDigit (Nat.div_lt_of_lt_mul b.isLt), hexVal_hexDigit (Nat.mod_lt _ (by decide)),
        (Nat.div_add_mod b.toNat 16).symm⟩, ih⟩

/-- Settles O53, byte by byte. -/
theorem hexRenderWritesTwoLowercaseDigits : Obligations.HexRenderWritesTwoLowercaseDigits :=
  fun bs => ⟨hexRender_length bs, hexRender_mem bs, hexParse_hexRender bs⟩

theorem lenOfBytes_toNat (m : Nat) : (lenOfBytes m).toNat = min m 7 := by
  simp only [lenOfBytes, BitVec.toNat_ofNat]
  omega

theorem transact_of_decode_ok {s : State} {rq : Request} {i : Instr} (h : decode rq.cmd = .ok i) :
    transact s rq = exec i (s.present rq) :=
  step_of_decode_ok (State.present_req s rq) h

section
variable {s : State} {call : Call}

theorem callOutcome_of_failed {e : ErrorStatus} (h : assemble s.cfg call = .failed e) :
    callOutcome s call = some (.error e) := by
  simp only [callOutcome, h]

theorem callOutcome_of_refused (h : assemble s.cfg call = .refused) : callOutcome s call = none := by
  simp only [callOutcome, h]

end

section
variable {w : Byte} {n : Nat} {h : Text}

/-- R76. The length is judged first. -/
theorem assembleHex_of_length_ne (hlen : h.length ≠ 2 * n) : assembleHex w n h = .failed .invalidLength :=
  if_pos hlen

/-- R77. A text of the right length that does not read has no request. -/
theorem assembleHex_of_not_hex {c : Char} (hlen : h.length = 2 * n) (hc : c ∈ h) (hval : hexVal c = none) :
    assembleHex w n h = .refused := by
  have hp : hexParse h = none := Option.eq_none_iff_forall_ne_some.mpr fun _ hbs => hexVal_ne_none_of_mem hbs c hc hval
  simp only [assembleHex, hlen, ne_eq, not_true_eq_false, if_false, hp]

theorem assembleHex_eq_request_iff {rq : Request} :
    assembleHex w n h = .request rq ↔ h.length = 2 * n ∧ ∃ bs, hexParse h = some bs ∧ rq = requestOfBytes w bs := by
  unfold assembleHex
  split
  next hlen => simp [hlen]
  next hlen => cases hexParse h <;> simp [not_not.mp hlen, eq_comm]

end

/-- R76. The bytes of a text of the wrong length, presented with LEN = min(m, 7), are InvalidLength to every command that
begins with the check for its own length. -/
theorem transact_of_length_ne {i : Instr} {n : Nat} {run : State → Request → Answer}
    (hexec : ∀ s, exec i s = onRequest s fun rq => if rq.len.toNat ≠ n then raise s .invalidLength else run s rq)
    (hn : n < 7) {h : Text} (hlen : h.length ≠ 2 * n) {bs : List Byte} (hbs : hexParse h = some bs) (s : State) :
    transact s (requestOfBytes (encode i) bs) = answered s (.error .invalidLength) := by
  obtain ⟨hpairs, -⟩ := (hexParse_eq_some_iff h bs).mp hbs
  have hwrong : (requestOfBytes (encode i) bs).len.toNat ≠ n := by
    rw [requestOfBytes, lenOfBytes_toNat]
    omega
  have hdec : decode (requestOfBytes (encode i) bs).cmd = .ok i := decode_encode i
  rw [transact_of_decode_ok hdec, hexec, onRequest_pending (State.present_req _ _), if_pos hwrong]
  exact raise_congr (State.present_cfg s _) .invalidLength

/-- Settles O54: the text form judges the length first, and so does each decode command. -/
theorem wrongLengthTextIsInvalidLength : Obligations.WrongLengthTextIsInvalidLength := by
  intro s h order sgn
  refine ⟨fun hlen => ⟨?_, fun bs hbs => ?_⟩, fun hlen => ⟨?_, fun bs hbs => ?_⟩, fun hlen => ⟨?_, fun bs hbs => ?_⟩⟩
  · exact callOutcome_of_failed (assembleHex_of_length_ne hlen)
  · exact transact_of_length_ne (n := 1) (fun _ => rfl) (by decide) hlen hbs s
  · exact callOutcome_of_failed (assembleHex_of_length_ne hlen)
  · exact transact_of_length_ne (n := 2) (fun _ => rfl) (by decide) hlen hbs s
  · exact callOutcome_of_failed (assembleHex_of_length_ne hlen)
  · exact transact_of_length_ne (n := 4) (fun _ => rfl) (by decide) hlen hbs s

/-- Settles O55: such a text does not read. -/
theorem nonHexTextHasNoOutcome : Obligations.NonHexTextHasNoOutcome := by
  intro s h c order sgn hc hval
  exact ⟨fun hlen => callOutcome_of_refused (assembleHex_of_not_hex hlen hc hval),
    fun hlen => callOutcome_of_refused (assembleHex_of_not_hex hlen hc hval),
    fun hlen => callOutcome_of_refused (assembleHex_of_not_hex hlen hc hval)⟩

theorem assembleInt_eq_request_iff {c : Config} {w : Byte} {v : Int} {rq : Request} :
    assembleInt c w v = .request rq ↔ FitsSigned c.valw v ∧ rq = requestOfInt w v := by
  rw [← fitsSigned_iff, assembleInt]
  split <;> simp [*, eq_comm]

theorem assembleTime_eq_request_iff {c : Config} {w : Byte} {t : Int} {rq : Request} :
    assembleTime c w t = .request rq ↔ FitsSigned c.timew t ∧ rq = requestOfTime w t := by
  rw [← fitsSigned_iff, assembleTime]
  split <;> simp [*, eq_comm]

/-- R74. The request of a decode call: where there is one, and what it carries. -/
theorem assembleHex_request (i : Instr) {n : Nat} (hn : n < 7) (h : Text) :
    (∀ bs, h.length = 2 * n → hexParse h = some bs →
      assembleHex (encode i) n h = .request (requestOfBytes (encode i) bs)) ∧
    ∀ rq, assembleHex (encode i) n h = .request rq → decode rq.cmd = .ok i ∧
      h.length = 2 * n ∧ rq.len.toNat = n ∧ ∃ bs, hexParse h = some bs ∧ rq.lanes = lanesOfBytes bs := by
  refine ⟨fun bs hlen hbs => assembleHex_eq_request_iff.mpr ⟨hlen, bs, hbs, rfl⟩, fun rq hrq => ?_⟩
  obtain ⟨hlen, bs, hbs, rfl⟩ := assembleHex_eq_request_iff.mp hrq
  obtain ⟨hpairs, -⟩ := (hexParse_eq_some_iff h bs).mp hbs
  refine ⟨decode_encode i, hlen, ?_, bs, hbs, rfl⟩
  rw [requestOfBytes, lenOfBytes_toNat]
  omega

/-- R27. The request of an encode call. -/
theorem assembleInt_request (i : Instr) (c : Config) (v : Int) :
    (FitsSigned c.valw v → assembleInt c (encode i) v = .request (requestOfInt (encode i) v)) ∧
    ∀ rq, assembleInt c (encode i) v = .request rq → decode rq.cmd = .ok i ∧ rq.val = v ∧ FitsSigned c.valw v := by
  refine ⟨fun hv => assembleInt_eq_request_iff.mpr ⟨hv, rfl⟩, fun rq hrq => ?_⟩
  obtain ⟨hv, rfl⟩ := assembleInt_eq_request_iff.mp hrq
  exact ⟨decode_encode i, rfl, hv⟩

/-- R28. The request of a time call. -/
theorem assembleTime_request (i : Instr) (c : Config) (t : Int) :
    (FitsSigned c.timew t → assembleTime c (encode i) t = .request (requestOfTime (encode i) t)) ∧
    ∀ rq, assembleTime c (encode i) t = .request rq → decode rq.cmd = .ok i ∧ rq.time = t ∧ FitsSigned c.timew t := by
  refine ⟨fun ht => assembleTime_eq_request_iff.mpr ⟨ht, rfl⟩, fun rq hrq => ?_⟩
  obtain ⟨ht, rfl⟩ := assembleTime_eq_request_iff.mp hrq
  exact ⟨decode_encode i, rfl, ht⟩

/-- Settles O56, class by class of the calls. -/
theorem callsBecomeTheirRequests : Obligations.CallsBecomeTheirRequests := by
  intro c call
  cases call with
  | decodeInt8 h sgn => exact assembleHex_request (.dec8 sgn) (n := 1) (by decide) h
  | decodeInt16 h order sgn => exact assembleHex_request (.dec16 order sgn) (n := 2) (by decide) h
  | decodeInt32 h order sgn => exact assembleHex_request (.dec32 order sgn) (n := 4) (by decide) h
  | encodeInt8 v => exact assembleInt_request .enc8 c v
  | encodeInt16 v order => exact assembleInt_request (.enc16 order) c v
  | encodeInt32 v order => exact assembleInt_request (.enc32 order) c v
  | gpsToUnix t => exact assembleTime_request .gps2unix c t
  | unixToGps t => exact assembleTime_request .unix2gps c t

end Sys2Proof.Machine
end

section
/-! Reading back the calls a host writes (R78, R79): the scanners on texts that do or do not hold the character they look for, decimal
numbers, and the parameters of a call. -/

namespace Sys2Proof.Machine

/-! The scanners. -/

theorem head?_append_ne {c : Char} {a b : Text} (ha : a.head? ≠ some c) (hb : b.head? ≠ some c) :
    (a ++ b).head? ≠ some c := by
  cases a with
  | nil => exact hb
  | cons x a => exact ha

theorem skipSpaces_eq_self {t : Text} (h : t.head? ≠ some ' ') : skipSpaces t = t := by
  cases t with
  | nil => rfl
  | cons c cs =>
    have hc : c.toNat ≠ 32 := fun hc => h (congrArg some (Char.toNat_inj.mp hc))
    simp [skipSpaces, hc]

theorem trim_eq_self {t : Text} (hfirst : t.head? ≠ some ' ') (hlast : t.getLast? ≠ some ' ') : trim t = t := by
  rw [trim, skipSpaces_eq_self hfirst, skipSpaces_eq_self (by rwa [List.head?_reverse]), List.reverse_reverse]

theorem trim_eq_self_of_not_mem {t : Text} (h : ' ' ∉ t) : trim t = t :=
  trim_eq_self (fun hfirst => h (List.mem_of_head? hfirst)) (fun hlast => h (List.mem_of_getLast? hlast))

section
variable {sep : Char} {a : Text} (hsep : sep ∉ a)
include hsep

theorem splitFirst_append (b : Text) : splitFirst sep (a ++ sep :: b) = (a, some b) := by
  induction a with
  | nil => simp [splitFirst]
  | cons c cs ih =>
    obtain ⟨hc, hcs⟩ := List.ne_and_not_mem_of_not_mem_cons hsep
    simp [splitFirst, Ne.symm hc, ih hcs]

theorem splitFirst_eq_self : splitFirst sep a = (a, none) := by
  induction a with
  | nil => rfl
  | cons c cs ih =>
    obtain ⟨hc, hcs⟩ := List.ne_and_not_mem_of_not_mem_cons hsep
    simp [splitFirst, Ne.symm hc, ih hcs]

theorem splitAll_append (b : Text) : splitAll sep (a ++ sep :: b) = a :: splitAll sep b := by
  induction a with
  | nil => simp [splitAll]
  | cons c cs ih =>
    obtain ⟨hc, hcs⟩ := List.ne_and_not_mem_of_not_mem_cons hsep
    simp [splitAll, Ne.symm hc, ih hcs]

theorem splitAll_eq_singleton : splitAll sep a = [a] := by
  induction a with
  | nil => rfl
  | cons c cs ih =>
    obtain ⟨hc, hcs⟩ := List.ne_and_not_mem_of_not_mem_cons hsep
    simp [splitAll, Ne.symm hc, ih hcs]

end

/-! Decimal numbers: what is read of `Nat.toDigits 10`, of an integer and of a count of half-seconds. -/

/-- One digit more at the low end of a number. -/
def digitStep (acc : Option Nat) (c : Char) : Option Nat :=
  acc.bind fun n => if 48 ≤ c.toNat ∧ c.toNat ≤ 57 then some (10 * n + (c.toNat - 48)) else none

theorem digitsVal_eq_foldl {cs : Text} (h : cs ≠ []) : digitsVal cs = cs.foldl digitStep (some 0) := by
  cases cs with
  | nil => exact absurd rfl h
  | cons c cs => rfl

theorem foldl_digitStep {cs : Text} (h : ∀ c ∈ cs, c.isDigit = true) (n : Nat) :
    cs.foldl digitStep (some n) = some (Nat.ofDigitChars 10 cs n) := by
  induction cs generalizing n with
  | nil => rfl
  | cons c cs ih =>
    obtain ⟨hc, hcs⟩ := List.forall_mem_cons.mp h
    have hstep : digitStep (some n) c = some (10 * n + (c.toNat - 48)) :=
      if_pos (by simpa [Char.isDigit, UInt32.le_iff_toNat_le] using hc)
    rw [List.foldl_cons, hstep, ih hcs]
    rfl

theorem isDigit_of_mem_toDigits {n : Nat} {c : Char} (h : c ∈ Nat.toDigits 10 n) : c.isDigit = true :=
  Nat.isDigit_of_mem_toDigits (by decide) (by decide) h

theorem not_mem_toDigits {c : Char} (hc : c.isDigit = false) (n : Nat) : c ∉ Nat.toDigits 10 n :=
  fun hmem => Bool.false_ne_true (hc.symm.trans (isDigit_of_mem_toDigits hmem))

theorem digitsVal_toDigits (n : Nat) : digitsVal (Nat.toDigits 10 n) = some n := by
  rw [digitsVal_eq_foldl Nat.toDigits_ne_nil, foldl_digitStep fun _ => isDigit_of_mem_toDigits,
    Nat.ofDigitChars_ten_toDigits]

theorem parseInt_of_not_mem_minus {t : Text} (h : '-' ∉ t) : parseInt t = (digitsVal t).map fun n => (n : Int) := by
  cases t with
  | nil => rfl
  | cons c cs => exact if_neg (Ne.symm (List.ne_of_not_mem_cons h))

/-- R78. An integer is read back from its decimal form. -/
theorem parseInt_renderInt (v : Int) : parseInt (renderInt v) = some v := by
  unfold renderInt
  split
  next hneg =>
    rw [parseInt, if_pos rfl, digitsVal_toDigits]
    exact congrArg some (show -((v.natAbs : Nat) : Int) = v by omega)
  next hnonneg =>
    rw [parseInt_of_not_mem_minus (not_mem_toDigits rfl _), digitsVal_toDigits]
    exact congrArg some (show ((v.natAbs : Nat) : Int) = v by omega)

theorem not_mem_renderInt {c : Char} (hdigit : c.isDigit = false) (hminus : c ≠ '-') (v : Int) : c ∉ renderInt v := by
  unfold renderInt
  split
  · exact List.not_mem_cons_of_ne_of_not_mem hminus (not_mem_toDigits hdigit _)
  · exact not_mem_toDigits hdigit _

/-- A count of half-seconds as seconds, without a sign. -/
def renderHalves (n : Nat) : Text :=
  Nat.toDigits 10 (n / 2) ++ if n % 2 = 1 then ['.', '5'] else []

theorem renderTime_eq (t : Int) :
    renderTime t = if t < 0 then '-' :: renderHalves t.natAbs else renderHalves t.natAbs := by
  unfold renderTime renderHalves
  split <;> simp

theorem halvesVal_renderHalves (n : Nat) : halvesVal (renderHalves n) = some n := by
  have hpoint : '.' ∉ Nat.toDigits 10 (n / 2) := not_mem_toDigits rfl _
  obtain heven | hodd := Nat.mod_two_eq_zero_or_one n
  · simp only [halvesVal, renderHalves, heven, zero_ne_one, if_false, List.append_nil, splitFirst_eq_self hpoint,
      digitsVal_toDigits]
    exact congrArg some (show 2 * (n / 2) = n by omega)
  · simp only [halvesVal, renderHalves, hodd, if_true, splitFirst_append hpoint, digitsVal_toDigits]
    exact congrArg some (show 2 * (n / 2) + 1 = n by omega)

theorem not_mem_renderHalves {c : Char} (hdigit : c.isDigit = false) (hpoint : c ≠ '.') (n : Nat) :
    c ∉ renderHalves n := by
  have hfive : c ≠ '5' := by rintro rfl; cases hdigit
  unfold renderHalves
  split <;> simp [not_mem_toDigits hdigit, hpoint, hfive]

theorem parseTime_of_not_mem_minus {t : Text} (h : '-' ∉ t) : parseTime t = (halvesVal t).map fun n => (n : Int) := by
  cases t with
  | nil => rfl
  | cons c cs => exact if_neg (Ne.symm (List.ne_of_not_mem_cons h))

/-- R78. A time is read back from its decimal form. -/
theorem parseTime_renderTime (t : Int) : parseTime (renderTime t) = some t := by
  rw [renderTime_eq]
  split
  next hneg =>
    rw [parseTime, if_pos rfl, halvesVal_renderHalves]
    exact congrArg some (show -((t.natAbs : Nat) : Int) = t by omega)
  next hnonneg =>
    rw [parseTime_of_not_mem_minus (not_mem_renderHalves rfl (by decide) _), halvesVal_renderHalves]
    exact congrArg some (show ((t.natAbs : Nat) : Int) = t by omega)

theorem space_not_mem_renderTime (t : Int) : ' ' ∉ renderTime t := by
  have hhalves := not_mem_renderHalves (c := ' ') rfl (by decide) t.natAbs
  rw [renderTime_eq]
  split
  · exact List.not_mem_cons_of_ne_of_not_mem (by decide) hhalves
  · exact hhalves

/-! A call as text. -/

theorem dropClosing_append {args : Text} (hargs : args.head? ≠ some ' ') : dropClosing (args ++ [')']) = some args := by
  have htrim : trim (args ++ [')']) = args ++ [')'] := trim_eq_self (head?_append_ne hargs (by decide)) (by simp)
  simp [dropClosing, htrim]

/-- R78. A call is read by its name, from the text between its parentheses. -/
theorem parseCall_callText {name args : Text} (hname : name.head? ≠ some ' ') (hparen : '(' ∉ name)
    (hargs : args.head? ≠ some ' ') : parseCall (callText name args) = callOfName name args := by
  have hfirst : (callText name args).head? ≠ some ' ' := head?_append_ne (head?_append_ne hname nofun) nofun
  have hlast : (callText name args).getLast? ≠ some ' ' := by
    rw [callText, List.getLast?_concat]
    decide
  rw [parseCall, trim_eq_self hfirst hlast, callText, List.append_assoc, List.cons_append, splitFirst_append hparen]
  exact congrArg (·.bind (callOfName name)) (dropClosing_append hargs)

theorem head?_quoted_append (h rest : Text) : (quoted h ++ rest).head? ≠ some ' ' :=
  show some quote ≠ some ' ' by decide

theorem parseQuoted_quoted {h : Text} (hq : quote ∉ h) (rest : Text) : parseQuoted (quoted h ++ rest) = some (h, rest) := by
  have hquoted : quoted h ++ rest = quote :: (h ++ quote :: rest) := by simp [quoted]
  rw [parseQuoted, skipSpaces_eq_self (head?_quoted_append h rest), hquoted]
  simp [splitFirst_append hq]

/-- The arguments of a decode call are its string and the parameters that stand after it. -/
theorem decodeArguments_quoted {α : Type} (ps : List Text → Option α) {h : Text} (hq : quote ∉ h) (rest : Text) :
    decodeArguments ps (quoted h ++ rest) = ((parameters rest).bind ps).map fun a => (h, a) := by
  rw [decodeArguments, parseQuoted_quoted hq]

section
variable {α : Type} (ps : List Text → Option α) (v : Int)

/-- The arguments of an encode call that has no parameter written. -/
theorem encodeArguments_renderInt : encodeArguments ps (renderInt v) = (ps []).map fun a => (v, a) := by
  have htrim : trim (renderInt v) = renderInt v := trim_eq_self_of_not_mem (not_mem_renderInt rfl (by decide) v)
  simp only [encodeArguments, splitAll_eq_singleton (not_mem_renderInt (c := ',') rfl (by decide) v), List.map_cons,
    List.map_nil, htrim, parseInt_renderInt]
  cases ps [] <;> rfl

/-- The arguments of an encode call with parameters written after its integer. -/
theorem encodeArguments_renderInt_comma (rest : Text) :
    encodeArguments ps (renderInt v ++ ',' :: rest) = (ps ((splitAll ',' rest).map trim)).map fun a => (v, a) := by
  have htrim : trim (renderInt v) = renderInt v := trim_eq_self_of_not_mem (not_mem_renderInt rfl (by decide) v)
  simp only [encodeArguments, splitAll_append (not_mem_renderInt (c := ',') rfl (by decide) v), List.map_cons, htrim,
    parseInt_renderInt]
  cases ps ((splitAll ',' rest).map trim) <;> rfl

end

/-! The parameters as the source writes them, by the cases of the two enumerations (R78, R79). -/

theorem parameters_sign (sgn : Signedness) : (parameters (comma ++ signName sgn)).bind signParameter = some sgn := by
  cases sgn <;> rfl

theorem parameters_order (order : Endianness) :
    (parameters (comma ++ orderName order)).bind orderSignParameters = some (order, .signed) := by
  cases order <;> rfl

theorem parameters_order_sign (order : Endianness) (sgn : Signedness) :
    (parameters (comma ++ (orderName order ++ (comma ++ signName sgn)))).bind orderSignParameters = some (order, sgn) := by
  cases order <;> cases sgn <;> rfl

/-- R79. A signedness in the place of the order is no parameter. -/
theorem parameters_sign_without_order (sgn : Signedness) :
    (parameters (comma ++ signName sgn)).bind orderSignParameters = none := by
  cases sgn <;> rfl

theorem orderParameter_orderName (order : Endianness) :
    orderParameter ((splitAll ',' (' ' :: orderName order)).map trim) = some order := by
  cases order <;> rfl

/-! What each name makes of the arguments. -/

section
variable (args : Text)

theorem callOfName_decodeInt8 : callOfName nameDecodeInt8 args =
    (decodeArguments signParameter args).map fun a => .decodeInt8 a.1 a.2 := rfl

theorem callOfName_encodeInt8 : callOfName nameEncodeInt8 args =
    (encodeArguments noParameter args).map fun a => .encodeInt8 a.1 := rfl

theorem callOfName_decodeInt16 : callOfName nameDecodeInt16 args =
    (decodeArguments orderSignParameters args).map fun a => .decodeInt16 a.1 a.2.1 a.2.2 := rfl

theorem callOfName_encodeInt16 : callOfName nameEncodeInt16 args =
    (encodeArguments orderParameter args).map fun a => .encodeInt16 a.1 a.2 := rfl

theorem callOfName_decodeInt32 : callOfName nameDecodeInt32 args =
    (decodeArguments orderSignParameters args).map fun a => .decodeInt32 a.1 a.2.1 a.2.2 := rfl

theorem callOfName_encodeInt32 : callOfName nameEncodeInt32 args =
    (encodeArguments orderParameter args).map fun a => .encodeInt32 a.1 a.2 := rfl

theorem callOfName_gpsToUnix : callOfName nameGpsToUnix args = (parseTime (trim args)).map .gpsToUnix := rfl

theorem callOfName_unixToGps : callOfName nameUnixToGps args = (parseTime (trim args)).map .unixToGps := rfl

end

/-! Each kind of call, read from its text; a hypothesis says what the name makes of the arguments. -/

theorem head?_renderInt (v : Int) : (renderInt v).head? ≠ some ' ' :=
  fun h => not_mem_renderInt rfl (by decide) v (List.mem_of_head? h)

theorem head?_renderTime (t : Int) : (renderTime t).head? ≠ some ' ' :=
  fun h => space_not_mem_renderTime t (List.mem_of_head? h)

section
variable {name : Text} {α : Type} {ps : List Text → Option α} (hname : name.head? ≠ some ' ') (hparen : '(' ∉ name)
include hname hparen

theorem parseCall_decode {call : Text × α → Call}
    (hcall : ∀ args, callOfName name args = (decodeArguments ps args).map call) {h : Text} (hq : quote ∉ h) (rest : Text) :
    parseCall (callText name (quoted h ++ rest)) = ((parameters rest).bind ps).map fun a => call (h, a) := by
  rw [parseCall_callText hname hparen (head?_quoted_append h rest), hcall, decodeArguments_quoted ps hq, Option.map_map]
  rfl

theorem parseCall_encode {call : Int × α → Call}
    (hcall : ∀ args, callOfName name args = (encodeArguments ps args).map call) (v : Int) :
    parseCall (callText name (renderInt v)) = (ps []).map fun a => call (v, a) := by
  rw [parseCall_callText hname hparen (head?_renderInt v), hcall, encodeArguments_renderInt, Option.map_map]
  rfl

theorem parseCall_encode_comma {call : Int × α → Call}
    (hcall : ∀ args, callOfName name args = (encodeArguments ps args).map call) (v : Int) (rest : Text) :
    parseCall (callText name (renderInt v ++ ',' :: rest)) =
      (ps ((splitAll ',' rest).map trim)).map fun a => call (v, a) := by
  rw [parseCall_callText hname hparen (head?_append_ne (head?_renderInt v) (by simp)), hcall,
    encodeArguments_renderInt_comma, Option.map_map]
  rfl

theorem parseCall_time {call : Int → Call} (hcall : ∀ args, callOfName name args = (parseTime (trim args)).map call)
    (t : Int) : parseCall (callText name (renderTime t)) = some (call t) := by
  rw [parseCall_callText hname hparen (head?_renderTime t), hcall,
    trim_eq_self_of_not_mem (space_not_mem_renderTime t), parseTime_renderTime]
  rfl

end

section
variable {h : Text} (hq : quote ∉ h) (rest : Text)
include hq

theorem parseCall_decodeInt8 : parseCall (callText nameDecodeInt8 (quoted h ++ rest)) =
    ((parameters rest).bind signParameter).map fun sgn => .decodeInt8 h sgn :=
  parseCall_decode (by decide) (by decide) callOfName_decodeInt8 hq rest

theorem parseCall_decodeInt16 : parseCall (callText nameDecodeInt16 (quoted h ++ rest)) =
    ((parameters rest).bind orderSignParameters).map fun p => .decodeInt16 h p.1 p.2 :=
  parseCall_decode (by decide) (by decide) callOfName_decodeInt16 hq rest

theorem parseCall_decodeInt32 : parseCall (callText nameDecodeInt32 (quoted h ++ rest)) =
    ((parameters rest).bind orderSignParameters).map fun p => .decodeInt32 h p.1 p.2 :=
  parseCall_decode (by decide) (by decide) callOfName_decodeInt32 hq rest

end

theorem parseCall_encodeInt16_order (v : Int) (order : Endianness) :
    parseCall (callText nameEncodeInt16 (renderInt v ++ (comma ++ orderName order))) = some (.encodeInt16 v order) :=
  (parseCall_encode_comma (by decide) (by decide) callOfName_encodeInt16 v _).trans
    (congrArg (Option.map _) (orderParameter_orderName order))

theorem parseCall_encodeInt32_order (v : Int) (order : Endianness) :
    parseCall (callText nameEncodeInt32 (renderInt v ++ (comma ++ orderName order))) = some (.encodeInt32 v order) :=
  (parseCall_encode_comma (by decide) (by decide) callOfName_encodeInt32 v _).trans
    (congrArg (Option.map _) (orderParameter_orderName order))

/-- Settles O57, call by call: its name, its operand and each of its parameters are read back. -/
theorem parsingUndoesWritingACall : Obligations.ParsingUndoesWritingACall := by
  intro call hq
  cases call with
  | decodeInt8 h sgn =>
    rw [renderCall, List.append_assoc, parseCall_decodeInt8 hq, parameters_sign]
    rfl
  | decodeInt16 h order sgn =>
    simp only [renderCall, List.append_assoc]
    rw [parseCall_decodeInt16 hq, parameters_order_sign]
    rfl
  | decodeInt32 h order sgn =>
    simp only [renderCall, List.append_assoc]
    rw [parseCall_decodeInt32 hq, parameters_order_sign]
    rfl
  | encodeInt8 v => exact parseCall_encode (by decide) (by decide) callOfName_encodeInt8 v
  | encodeInt16 v order =>
    rw [renderCall, List.append_assoc, parseCall_encodeInt16_order]
  | encodeInt32 v order =>
    rw [renderCall, List.append_assoc, parseCall_encodeInt32_order]
  | gpsToUnix t => exact parseCall_time (by decide) (by decide) callOfName_gpsToUnix t
  | unixToGps t => exact parseCall_time (by decide) (by decide) callOfName_unixToGps t

/-- Settles O58: what is read of no parameter, of one and of one in the wrong place. -/
theorem omittedParametersMeanBigEndianSigned : Obligations.OmittedParametersMeanBigEndianSigned := by
  refine ⟨fun h order hq => ⟨?_, ?_, ?_, ?_, ?_⟩, fun h sgn hq => ⟨?_, ?_⟩, fun v => ⟨?_, ?_⟩⟩
  · rw [← List.append_nil (quoted h), parseCall_decodeInt8 hq]
    rfl
  · rw [← List.append_nil (quoted h), parseCall_decodeInt16 hq]
    rfl
  · rw [List.append_assoc, parseCall_decodeInt16 hq, parameters_order]
    rfl
  · rw [← List.append_nil (quoted h), parseCall_decodeInt32 hq]
    rfl
  · rw [List.append_assoc, parseCall_decodeInt32 hq, parameters_order]
    rfl
  · rw [List.append_assoc, parseCall_decodeInt16 hq, parameters_sign_without_order]
    rfl
  · rw [List.append_assoc, parseCall_decodeInt32 hq, parameters_sign_without_order]
    rfl
  · exact parseCall_encode (by decide) (by decide) callOfName_encodeInt16 v
  · exact parseCall_encode (by decide) (by decide) callOfName_encodeInt32 v

end Sys2Proof.Machine
end

section
/-! What a decode command makes of its lanes, as arithmetic: the assembled patterns as weighted sums (R90), and the sign-bit
interpreter as a bijection from patterns onto the range of a signedness (R91, R92). -/

namespace Sys2Proof.Machine

theorem assemble2_bigEndian (l : Lanes) : assemble2 l .bigEndian = some (256 * l.b0.toNat + l.b1.toNat) :=
  congrArg some (joinPair_eq l.b0 l.b1)

theorem assemble2_littleEndian (l : Lanes) : assemble2 l .littleEndian = some (256 * l.b1.toNat + l.b0.toNat) :=
  congrArg some (joinPair_eq l.b1 l.b0)

/-- R90. Under every order the lane that supplies octet j has the weight of octet j. -/
theorem assemble4_eq (l : Lanes) (order : Endianness) :
    assemble4 l order =
      16777216 * (l.lane (orderPerm order 0)).toNat + 65536 * (l.lane (orderPerm order 1)).toNat +
        256 * (l.lane (orderPerm order 2)).toNat + (l.lane (orderPerm order 3)).toNat := by
  rw [assemble4_eq_joinPair, joinPair_eq, joinPair_eq]
  omega

/-- Settles O31: the weighted sum of the lanes that each order's permutation picks. -/
theorem assembleIsTheWeightedSum : Obligations.AssembleIsTheWeightedSum := fun l =>
  ⟨rfl, assemble1_lt l, assemble2_bigEndian l, assemble2_littleEndian l, rfl, rfl,
    fun _ _ => assemble2_lt, assemble4_lt l, assemble4_eq l .bigEndian, assemble4_eq l .midBigEndian,
    assemble4_eq l .littleEndian, assemble4_eq l .midLittleEndian⟩

/-- The signed range of a width is the range of a signed port of that width. -/
theorem inSignRange_signed_iff {w : Nat} {x : Int} : InSignRange w .signed x ↔ FitsSigned w x :=
  and_congr_right fun _ => Int.le_sub_one_iff

/-- R92. Integers in the range of one signedness that are congruent modulo 2^W are equal: the range is 2^W integers long. -/
theorem InSignRange.eq_of_dvd {w : Nat} (hw : 1 ≤ w) {sgn : Signedness} {x y : Int} (hx : InSignRange w sgn x)
    (hy : InSignRange w sgn y) (h : (2 ^ w : Int) ∣ x - y) : x = y := by
  have hhalf : (2 * 2 ^ (w - 1) : Int) = 2 ^ w := mul_pow_sub_one (by omega) 2
  have hclose : |x - y| < 2 ^ w := by
    rw [abs_lt]
    cases sgn with
    | unsigned | signed =>
      obtain ⟨hxlo, hxhi⟩ := hx
      obtain ⟨hylo, hyhi⟩ := hy
      constructor <;> omega
  exact sub_eq_zero.mp (Int.eq_zero_of_abs_lt_dvd h hclose)

section
variable {w u : Nat} (hw : 1 ≤ w) (hu : u < 2 ^ w)
include hw hu

/-- R91. Below the sign bit the two signednesses agree. -/
theorem signInterp_signed_of_lt (h : u < 2 ^ (w - 1)) : signInterp w u .signed = u := by
  rw [signInterp_eq_patternValue hw hu, patternValue, if_pos h]

/-- R91. From the sign bit on, two's complement takes 2^W away. -/
theorem signInterp_signed_of_le (h : 2 ^ (w - 1) ≤ u) : signInterp w u .signed = (u : Int) - 2 ^ w := by
  rw [signInterp_eq_patternValue hw hu, patternValue, if_neg (not_lt.mpr h)]

/-- R92. What a pattern is read as is congruent to it. -/
theorem two_pow_dvd_signInterp_sub (sgn : Signedness) : (2 ^ w : Int) ∣ signInterp w u sgn - u := by
  cases sgn with
  | unsigned => simp [signInterp]
  | signed =>
    obtain h | h := lt_or_ge u (2 ^ (w - 1))
    · simp [signInterp_signed_of_lt hw hu h]
    · simp [signInterp_signed_of_le hw hu h]

/-- R91. The signed reading is the one integer of the signed range congruent to the pattern. -/
theorem signInterp_signed_eq_sext : signInterp w u .signed = sext w u :=
  ((sext_eq_iff hw).mpr
    ⟨inSignRange_signed_iff.mp (signInterp_inSignRange hw hu .signed), two_pow_dvd_signInterp_sub hw hu .signed⟩).symm

/-- R96 (c). The two readings differ by 2^W where the sign bit is set and agree elsewhere. -/
theorem signInterp_unsigned_sub_signed :
    signInterp w u .unsigned - signInterp w u .signed = if u.testBit (w - 1) then 2 ^ w else 0 := by
  rw [show signInterp w u .unsigned = u from rfl]
  obtain h | h := lt_or_ge u (2 ^ (w - 1))
  · rw [signInterp_signed_of_lt hw hu h, if_neg (mt (testBit_sign_iff hw hu).mp (not_le.mpr h)), sub_self]
  · rw [signInterp_signed_of_le hw hu h, if_pos ((testBit_sign_iff hw hu).mpr h), sub_sub_cancel]

end

/-- R92. No two patterns are read alike: they would be congruent, and patterns are the unsigned range. -/
theorem signInterp_injective {w u₁ u₂ : Nat} (hw : 1 ≤ w) {sgn : Signedness} (hu₁ : u₁ < 2 ^ w) (hu₂ : u₂ < 2 ^ w)
    (h : signInterp w u₁ sgn = signInterp w u₂ sgn) : u₁ = u₂ := by
  have hcongr : (2 ^ w : Int) ∣ u₁ - u₂ := by
    have hsub := dvd_sub (two_pow_dvd_signInterp_sub hw hu₂ sgn) (two_pow_dvd_signInterp_sub hw hu₁ sgn)
    rwa [h, sub_sub_sub_cancel_left] at hsub
  exact Int.ofNat_inj.mp ((signInterp_inSignRange hw hu₁ .unsigned).eq_of_dvd hw
    (signInterp_inSignRange hw hu₂ .unsigned) hcongr)

/-- R92. Every integer in the range of a signedness is what its residue modulo 2^W is read as. -/
theorem exists_signInterp_eq {w : Nat} (hw : 1 ≤ w) {sgn : Signedness} {x : Int} (hx : InSignRange w sgn x) :
    ∃ u, u < 2 ^ w ∧ signInterp w u sgn = x := by
  have hpos : (0 : Int) < 2 ^ w := by positivity
  obtain ⟨u, hres⟩ := Int.eq_ofNat_of_zero_le (Int.emod_nonneg x hpos.ne')
  have hu : u < 2 ^ w := by exact_mod_cast hres ▸ Int.emod_lt_of_pos x hpos
  refine ⟨u, hu, (signInterp_inSignRange hw hu sgn).eq_of_dvd hw hx ?_⟩
  have hsub := dvd_sub (two_pow_dvd_signInterp_sub hw hu sgn) (Int.dvd_self_sub_emod (x := x) (m := 2 ^ w))
  rwa [hres, sub_sub_sub_cancel_right] at hsub

/-- R92, R110. The two ranges overlap, and together they are the encode range. -/
theorem inEncodeRange_iff_inSignRange {w : Nat} (hw : 1 ≤ w) (x : Int) :
    InEncodeRange w x ↔ InSignRange w .signed x ∨ InSignRange w .unsigned x := by
  have hhalf : (2 * 2 ^ (w - 1) : Int) = 2 ^ w := mul_pow_sub_one (by omega) 2
  have hpos : (0 : Int) < 2 ^ (w - 1) := by positivity
  simp only [InSignRange]
  omega

/-- Settles O32: below the sign bit and from it on. -/
theorem signInterpIsTwosComplement : Obligations.SignInterpIsTwosComplement := by
  intro w u hw hu
  have hsign := testBit_sign_iff hw hu
  have hmod : (u : Int) % 2 ^ w = u := Int.emod_eq_of_lt (Int.natCast_nonneg u) (by exact_mod_cast hu)
  exact ⟨rfl, hsign, signInterp_signed_of_lt hw hu,
    fun h => ⟨if_pos (hsign.mpr h), signInterp_signed_of_le hw hu h⟩, signInterp_signed_eq_sext hw hu, hmod.symm⟩

/-- Settles O33: a congruence into a range of 2^W integers is one-to-one and onto. -/
theorem decodeResultRanges : Obligations.DecodeResultRanges := fun _ hw =>
  ⟨fun _ sgn hu => ⟨signInterp_inSignRange hw hu sgn, two_pow_dvd_signInterp_sub hw hu sgn⟩,
    fun _ _ _ hu₁ hu₂ => signInterp_injective hw hu₁ hu₂, fun _ _ => exists_signInterp_eq hw,
    inEncodeRange_iff_inSignRange hw⟩

end Sys2Proof.Machine
end

section
/-! The decode commands (R93 to R96): their words, and each command's answer by its length check and its pattern. -/

namespace Sys2Proof

/-- R61. A legal command word as a number: OP has weight 8, END weight 2, SGN weight 1. -/
theorem wordOfFields_eq_ofNat (op : BitVec 3) (e : BitVec 2) (c : BitVec 1) :
    wordOfFields op e c = BitVec.ofNat 8 (8 * op.toNat + 2 * e.toNat + c.toNat) := by
  revert op e c; decide

/-- R66. The words of OP 0b000 with a byte order are illegal: a finite check of the words. -/
theorem legalWord_dec8_order : ∀ w : Byte, 0x02 ≤ w.toNat → w.toNat ≤ 0x07 → legalWord w = false := by
  decide

end Sys2Proof

namespace Sys2Proof.Machine

section
variable {s : State} {rq : Request} (hreq : s.req = some rq)
include hreq

/-- R155. Every decode command begins with the check for its own length. -/
theorem exec_of_length_ne {i : Instr} {n : Nat} {run : State → Request → Answer}
    (hexec : ∀ s, exec i s = onRequest s fun rq => if rq.len.toNat ≠ n then raise s .invalidLength else run s rq)
    (hlen : rq.len.toNat ≠ n) : exec i s = answered s (.error .invalidLength) := by
  rw [hexec, onRequest_pending hreq, if_pos hlen]
  rfl

/-- R93. With one byte presented, DEC8 reads the pattern of its lane. -/
theorem exec_dec8 (hlen : rq.len.toNat = 1) (sgn : Signedness) :
    exec (.dec8 sgn) s = answered s (.value (patternValue 8 (assemble1 rq.lanes) sgn)) := by
  rw [← signInterp_eq_patternValue (by decide) (assemble1_lt rq.lanes)]
  exact (onRequest_pending hreq).trans (if_neg (not_not.mpr hlen))

/-- R94. With two bytes presented, DEC16 reads the pattern that its order assembles. -/
theorem exec_dec16_of_some (hlen : rq.len.toNat = 2) {order : Endianness} {u : Nat}
    (hu : assemble2 rq.lanes order = some u) (sgn : Signedness) :
    exec (.dec16 order sgn) s = answered s (.value (patternValue 16 u sgn)) := by
  rw [← signInterp_eq_patternValue (by decide) (assemble2_lt hu), exec, execDec16, onRequest_pending hreq,
    if_neg (not_not.mpr hlen), hu]
  rfl

/-- R94. With two bytes presented, DEC16 has no pattern under a Mid order. -/
theorem exec_dec16_of_none (hlen : rq.len.toNat = 2) {order : Endianness} (hu : assemble2 rq.lanes order = none)
    (sgn : Signedness) : exec (.dec16 order sgn) s = answered s (.error .unsupportedEndianness) := by
  rw [exec, execDec16, onRequest_pending hreq, if_neg (not_not.mpr hlen), hu]
  rfl

/-- R95. With four bytes presented, DEC32 reads the pattern that its order assembles. -/
theorem exec_dec32 (hlen : rq.len.toNat = 4) (order : Endianness) (sgn : Signedness) :
    exec (.dec32 order sgn) s = answered s (.value (patternValue 32 (assemble4 rq.lanes order) sgn)) := by
  rw [← signInterp_eq_patternValue (by decide) (assemble4_lt rq.lanes order), exec, execDec32, onRequest_pending hreq,
    if_neg (not_not.mpr hlen)]
  rfl

/-- R96 (d). DEC16 reads its lanes through Assemble_2 alone: lanes with the same assembled pattern answer alike. -/
theorem exec_dec16_rearranged {order order' : Endianness} {l : Lanes} (h : assemble2 rq.lanes order = assemble2 l order')
    (sgn : Signedness) : exec (.dec16 order sgn) s = exec (.dec16 order' sgn) (s.present { rq with lanes := l }) := by
  simp only [exec, execDec16, onRequest_pending hreq, onRequest_pending (State.present_req s _), h]
  rfl

/-- R96 (d). DEC32 reads its lanes through Assemble_4 alone: lanes with the same assembled pattern answer alike. -/
theorem exec_dec32_rearranged {order order' : Endianness} {l : Lanes} (h : assemble4 rq.lanes order = assemble4 l order')
    (sgn : Signedness) : exec (.dec32 order sgn) s = exec (.dec32 order' sgn) (s.present { rq with lanes := l }) := by
  simp only [exec, execDec32, onRequest_pending hreq, onRequest_pending (State.present_req s _), h]
  rfl

end

/-- Settles O1: the word, the length check and the pattern of the one lane. -/
theorem dec8Command : Obligations.Dec8Command :=
  ⟨decode_encode (.dec8 .signed), decode_encode (.dec8 .unsigned),
    fun _ _ sgn hreq hlen => exec_dec8 hreq hlen sgn,
    fun _ _ _ hreq hlen => exec_of_length_ne hreq (fun _ => rfl) hlen,
    fun _ rq hreq hlo hhi => step_of_illegalWord hreq (legalWord_dec8_order rq.cmd hlo hhi)⟩

/-- Settles O2: the words, the pattern under the two orders that have one, and the length check before the order. -/
theorem dec16Command : Obligations.Dec16Command := by
  refine ⟨fun order sgn => decode_eq_ok_iff.mpr (wordOfFields_eq_ofNat 0b010#3 _ _).symm, fun s rq sgn hreq hlen => ?_,
    fun s rq order sgn hreq hlen => exec_of_length_ne hreq (fun _ => rfl) hlen⟩
  exact ⟨exec_dec16_of_some hreq hlen (assemble2_bigEndian rq.lanes) sgn,
    exec_dec16_of_some hreq hlen (assemble2_littleEndian rq.lanes) sgn,
    exec_dec16_of_none hreq hlen rfl sgn, exec_dec16_of_none hreq hlen rfl sgn⟩

/-- Settles O3: the words, the weighted sum under each order, and the length check. -/
theorem dec32Command : Obligations.Dec32Command := by
  refine ⟨fun order sgn => decode_eq_ok_iff.mpr (wordOfFields_eq_ofNat 0b100#3 _ _).symm, ?_,
    fun s rq order sgn hreq hlen => exec_of_length_ne hreq (fun _ => rfl) hlen⟩
  rintro s rq sgn _ _ _ _ hreq hlen rfl rfl rfl rfl
  have answer (order : Endianness) := exec_dec32 hreq hlen order sgn
  simp only [assemble4_eq] at answer
  exact ⟨answer .bigEndian, answer .midBigEndian, answer .littleEndian, answer .midLittleEndian⟩

/-- Settles O38: the sign bit decides the difference, and rearranged lanes assemble to the same pattern. -/
theorem decodeOrdersRearrangeTheLanes : Obligations.DecodeOrdersRearrangeTheLanes := by
  refine ⟨fun _ _ => signInterp_unsigned_sub_signed, fun s rq sgn b0 b1 b2 b3 hreq hlanes => ?_⟩
  have hpair : assemble2 rq.lanes .littleEndian = assemble2 ⟨b1, b0, b2, b3⟩ .bigEndian := by rw [hlanes]; rfl
  have hmid : assemble4 rq.lanes .midBigEndian = assemble4 ⟨b1, b0, b3, b2⟩ .bigEndian := by rw [hlanes]; rfl
  have hlittle : assemble4 rq.lanes .littleEndian = assemble4 ⟨b3, b2, b1, b0⟩ .bigEndian := by rw [hlanes]; rfl
  have hmidLittle : assemble4 rq.lanes .midLittleEndian = assemble4 ⟨b2, b3, b0, b1⟩ .bigEndian := by rw [hlanes]; rfl
  exact ⟨exec_dec16_rearranged hreq hpair sgn, exec_dec32_rearranged hreq hmid sgn,
    exec_dec32_rearranged hreq hlittle sgn, exec_dec32_rearranged hreq hmidLittle sgn⟩

end Sys2Proof.Machine
end

section
/-! The octets of an integer (R111), and Place against Assemble (R112). -/

namespace Sys2Proof.Machine

theorem octet_toNat (v : Int) (k : Nat) : ((octet v k).toNat : Int) = v / 2 ^ k % 256 := by
  rw [octet, BitVec.toNat_ofInt, Int.toNat_of_nonneg (Int.emod_nonneg _ (by decide)), Int.shiftRight_eq_div_pow]
  push_cast
  rfl

theorem octet_eq_iff {v : Int} {k : Nat} {o : Byte} : octet v k = o ↔ v / 2 ^ k % 256 = o.toNat := by
  rw [← octet_toNat, Int.ofNat_inj, BitVec.toNat_inj]

theorem octet_eq_ofInt (v : Int) (k : Nat) : octet v k = BitVec.ofInt 8 (v / 2 ^ k % 256) := by
  rw [octet_eq_iff, BitVec.toNat_ofInt]
  omega

theorem octet_zero (v : Int) : octet v 0 = BitVec.ofInt 8 (v % 256) := by
  rw [octet_eq_ofInt, pow_zero, Int.ediv_one]

theorem octet_eight (v : Int) : octet v 8 = BitVec.ofInt 8 (v / 256 % 256) := octet_eq_ofInt v 8

theorem octet_sixteen (v : Int) : octet v 16 = BitVec.ofInt 8 (v / 65536 % 256) := octet_eq_ofInt v 16

theorem octet_twentyFour (v : Int) : octet v 24 = BitVec.ofInt 8 (v / 16777216 % 256) := octet_eq_ofInt v 24

/-- R111. The octets of a width depend on the value modulo 2^W alone. -/
theorem octet_congr {w k : Nat} {x y : Int} (hk : k + 8 ≤ w) (h : (2 ^ w : Int) ∣ x - y) : octet x k = octet y k := by
  obtain ⟨c, hc⟩ := (pow_dvd_pow (2 : Int) hk).trans h
  have hx : x = y + 2 ^ k * (256 * c) := by rw [pow_add] at hc; linarith
  rw [octet_eq_iff, octet_toNat, hx, Int.add_mul_ediv_left _ _ (by positivity), Int.add_mul_emod_self_left]

/-- R111. The pattern of an accepted value: one step of 2^W brings a negative value in. -/
theorem emod_two_pow_of_inEncodeRange {w : Nat} {v : Int} (h : InEncodeRange w v) :
    v % 2 ^ w = if 0 ≤ v then v else v + 2 ^ w := by
  obtain ⟨hlo, hhi⟩ := h
  have hhalf : (2 ^ (w - 1) : Int) ≤ 2 ^ w := pow_le_pow_right₀ (by decide) (by omega)
  split
  · exact Int.emod_eq_of_lt ‹_› (by omega)
  · rw [← Int.add_emod_right]
    exact Int.emod_eq_of_lt (by omega) (by omega)

/-- Settles O34: a value, its pattern and its sum with 2^W are congruent, so they have the same octets. -/
theorem octetsAreTheFieldsOfThePattern : Obligations.OctetsAreTheFieldsOfThePattern := by
  refine fun w v => ⟨emod_two_pow_of_inEncodeRange, fun j hj hjw => ?_⟩
  refine ⟨?_, octet_congr (w := w) (by omega) (by simp)⟩
  rw [octet_congr (w := w) (by omega) (Int.dvd_self_sub_emod (x := v) (m := 2 ^ w)), octet_toNat]

/-- R112. Place_2 has an answer under two orders, and Assemble_2 under the same order takes the octets back out. -/
theorem assemble2_lanesOfBytes_of_place2 {o1 o2 : Byte} {order : Endianness} {rb : List Byte}
    (h : place2 o1 o2 order = some rb) : assemble2 (lanesOfBytes rb) order = some (256 * o1.toNat + o2.toNat) := by
  cases order with
  | bigEndian => cases h; exact assemble2_bigEndian _
  | littleEndian => cases h; exact assemble2_littleEndian _
  | midBigEndian | midLittleEndian => cases h

section
variable {order : Endianness} (horder : order = .bigEndian ∨ order = .littleEndian)
include horder

theorem exists_place2_eq_some (o1 o2 : Byte) : ∃ rb, place2 o1 o2 order = some rb := by
  obtain rfl | rfl := horder
  · exact ⟨_, rfl⟩
  · exact ⟨_, rfl⟩

/-- R112. Under an order that Place_2 supports, every two bytes are placed octets. -/
theorem exists_place2_of_length {rb : List Byte} (hrb : rb.length = 2) : ∃ o1 o2, place2 o1 o2 order = some rb := by
  obtain ⟨x, y, rfl⟩ := List.length_eq_two.mp hrb
  obtain rfl | rfl := horder
  · exact ⟨x, y, rfl⟩
  · exact ⟨y, x, rfl⟩

end

/-- R112. Under every order, every four bytes are placed octets: the order picks them out (R46). -/
theorem exists_place4_of_length (order : Endianness) {rb : List Byte} (hrb : rb.length = 4) :
    ∃ o1 o2 o3 o4, rb = place4 o1 o2 o3 o4 order := by
  match rb, hrb with
  | [x, y, z, t], _ =>
    cases order with
    | bigEndian => exact ⟨x, y, z, t, rfl⟩
    | midBigEndian => exact ⟨y, x, t, z, rfl⟩
    | littleEndian => exact ⟨t, z, y, x, rfl⟩
    | midLittleEndian => exact ⟨z, t, x, y, rfl⟩

/-- R46, R112. The order that placed the octets finds octet j again as its own. -/
theorem lane_orderPerm_place4 (o1 o2 o3 o4 : Byte) (order : Endianness) (j : Fin 4) :
    (lanesOfBytes (place4 o1 o2 o3 o4 order)).lane (orderPerm order j) = Lanes.lane ⟨o1, o2, o3, o4⟩ j := by
  have hlane (k : Fin 4) : (lanesOfBytes (place4 o1 o2 o3 o4 order)).lane k =
      Lanes.lane ⟨o1, o2, o3, o4⟩ (orderPerm order k) := by
    fin_cases k <;> rfl
  rw [hlane, everyOrderIsItsOwnInverse]

theorem assemble4_lanesOfBytes_place4 (o1 o2 o3 o4 : Byte) (order : Endianness) :
    assemble4 (lanesOfBytes (place4 o1 o2 o3 o4 order)) order =
      16777216 * o1.toNat + 65536 * o2.toNat + 256 * o3.toNat + o4.toNat := by
  simp only [assemble4_eq, lane_orderPerm_place4]
  rfl

/-- Settles O35: the placed octets order by order, and what Assemble finds in them. -/
theorem assembleUndoesPlace : Obligations.AssembleUndoesPlace := fun o1 o2 o3 o4 =>
  ⟨rfl, rfl, rfl, rfl, rfl, rfl, rfl, rfl, fun _ _ => assemble2_lanesOfBytes_of_place2,
    assemble4_lanesOfBytes_place4 o1 o2 o3 o4⟩

/-- A byte is the one octet of a value exactly when the value is congruent to it. -/
theorem octets8_iff {x : Int} {o : Byte} : octet x 0 = o ↔ (2 ^ 8 : Int) ∣ x - (o.toNat : Int) := by
  rw [octet_eq_iff]
  omega

/-- Two bytes are the octets of a value exactly when the value is congruent to their pattern. -/
theorem octets16_iff {x : Int} {o1 o2 : Byte} :
    octet x 8 = o1 ∧ octet x 0 = o2 ↔ (2 ^ 16 : Int) ∣ x - ((256 * o1.toNat + o2.toNat : Nat) : Int) := by
  rw [octet_eq_iff, octet_eq_iff]
  omega

/-- Four bytes are the octets of a value exactly when the value is congruent to their pattern. -/
theorem octets32_iff {x : Int} {o1 o2 o3 o4 : Byte} :
    octet x 24 = o1 ∧ octet x 16 = o2 ∧ octet x 8 = o3 ∧ octet x 0 = o4 ↔
      (2 ^ 32 : Int) ∣ x - ((16777216 * o1.toNat + 65536 * o2.toNat + 256 * o3.toNat + o4.toNat : Nat) : Int) := by
  simp only [octet_eq_iff]
  omega

end Sys2Proof.Machine
end

section
/-! The encode commands (R113 to R115): their words, and each command's answer by its range check and its octets. -/

namespace Sys2Proof

/-- R66. ENC16 and ENC32 have no signedness: a finite check of their words with SGN = 1. -/
theorem legalWord_enc_sgn : ∀ (e : BitVec 2) (w : Byte),
    w.toNat = 0x19 + 2 * e.toNat ∨ w.toNat = 0x29 + 2 * e.toNat → legalWord w = false := by
  decide

/-- R66. ENC8 has no byte order and no signedness: a finite check of the other words of OP 0b001. -/
theorem legalWord_enc8_order_sgn : ∀ w : Byte, 0x09 ≤ w.toNat → w.toNat ≤ 0x0F → legalWord w = false := by
  decide

end Sys2Proof

namespace Sys2Proof.Machine

/-- An encode command before its bytes: the integer operand, behind the check of the width's encode range (R69, R110). -/
def onAccepted (w : Nat) (s : State) (run : Int → Answer) : Answer :=
  onRequest s fun rq => if inEncodeRange w (valOperand s rq) then run (valOperand s rq) else raise s .outOfRange

/-- R113. ENC8 answers with the one octet of an accepted value. -/
theorem exec_enc8_eq (s : State) : exec .enc8 s = onAccepted 8 s fun v => complete s (.bytes [octet v 0]) := rfl

/-- R114. ENC16 answers with the two octets of an accepted value as its order places them, where it does. -/
theorem exec_enc16_eq (order : Endianness) (s : State) :
    exec (.enc16 order) s = onAccepted 16 s fun v =>
      (place2 (octet v 8) (octet v 0) order).elim (raise s .unsupportedEndianness) fun rb => complete s (.bytes rb) := by
  refine congrArg (onRequest s) (funext fun rq => if_congr Iff.rfl ?_ rfl)
  dsimp only
  cases place2 (octet (valOperand s rq) 8) (octet (valOperand s rq) 0) order with
  | none => rfl
  | some rb => rfl

/-- R115. ENC32 answers with the four octets of an accepted value as its order places them. -/
theorem exec_enc32_eq (order : Endianness) (s : State) :
    exec (.enc32 order) s = onAccepted 32 s fun v =>
      complete s (.bytes (place4 (octet v 24) (octet v 16) (octet v 8) (octet v 0) order)) := rfl

section
variable {w : Nat} {s : State} {rq : Request} {v : Int} (hreq : s.req = some rq) (hval : valOperand s rq = v)
include hreq hval

/-- A value in the encode range goes on to its bytes. -/
theorem onAccepted_of_inEncodeRange (hv : InEncodeRange w v) (run : Int → Answer) : onAccepted w s run = run v := by
  subst hval
  rw [onAccepted, onRequest_pending hreq, if_pos (inEncodeRange_iff.mpr hv)]

/-- R156. A value outside the encode range is reported before anything else is done with it. -/
theorem onAccepted_of_not_inEncodeRange (hv : ¬ InEncodeRange w v) (run : Int → Answer) :
    onAccepted w s run = answered s (.error .outOfRange) := by
  subst hval
  rw [onAccepted, onRequest_pending hreq, if_neg (mt inEncodeRange_iff.mp hv)]
  rfl

end

/-- Settles O4: the word, the range check and the one octet. -/
theorem enc8Command : Obligations.Enc8Command := by
  refine ⟨decode_encode .enc8,
    fun s rq hreq hlo hhi => step_of_illegalWord hreq (legalWord_enc8_order_sgn rq.cmd hlo hhi),
    fun s rq v hreq hval => ?_⟩
  rw [exec_enc8_eq]
  refine ⟨fun hlo hhi => ?_, fun hv => onAccepted_of_not_inEncodeRange hreq hval (by omega) _⟩
  rw [onAccepted_of_inEncodeRange hreq hval ⟨hlo, hhi⟩, octet_zero]
  rfl

/-- Settles O5: the words, the range check before the order, and the two octets as the order places them. -/
theorem enc16Command : Obligations.Enc16Command := by
  refine ⟨fun order => decode_eq_ok_iff.mpr (wordOfFields_eq_ofNat 0b011#3 (codeOfEnd order) 0b0#1).symm,
    fun s rq order hreq hcmd => step_of_illegalWord hreq (legalWord_enc_sgn (codeOfEnd order) rq.cmd (.inl hcmd)),
    fun s rq v hreq hval => ?_⟩
  simp only [exec_enc16_eq]
  refine ⟨fun hlo hhi => ?_, fun hv order => onAccepted_of_not_inEncodeRange hreq hval (by omega) _⟩
  simp only [onAccepted_of_inEncodeRange (w := 16) hreq hval ⟨hlo, hhi⟩, octet_zero, octet_eight]
  exact ⟨rfl, rfl, rfl, rfl⟩

/-- Settles O6: the words, the range check, and the four octets as the order places them. -/
theorem enc32Command : Obligations.Enc32Command := by
  refine ⟨fun order => decode_eq_ok_iff.mpr (wordOfFields_eq_ofNat 0b101#3 (codeOfEnd order) 0b0#1).symm,
    fun s rq order hreq hcmd => step_of_illegalWord hreq (legalWord_enc_sgn (codeOfEnd order) rq.cmd (.inr hcmd)), ?_⟩
  rintro s rq v _ _ _ _ hreq hval rfl rfl rfl rfl
  simp only [exec_enc32_eq]
  refine ⟨fun hlo hhi => ?_, fun hv order => onAccepted_of_not_inEncodeRange hreq hval (by omega) _⟩
  simp only [onAccepted_of_inEncodeRange (w := 32) hreq hval ⟨hlo, hhi⟩, octet_zero, octet_eight, octet_sixteen,
    octet_twentyFour]
  exact ⟨rfl, rfl, rfl, rfl⟩

section
variable {w : Nat} {s₁ s₂ : State} {a b : Request} (ha : s₁.req = some a) (hb : s₂.req = some b)
  (hva : InEncodeRange w (valOperand s₁ a)) (hvb : InEncodeRange w (valOperand s₂ b))
include ha hb hva hvb

theorem onAccepted_answersAlike {run₁ run₂ : Int → Answer}
    (hrun : AnswersAlike s₁ s₂ (run₁ (valOperand s₁ a)) (run₂ (valOperand s₂ b))) :
    AnswersAlike s₁ s₂ (onAccepted w s₁ run₁) (onAccepted w s₂ run₂) := by
  rwa [onAccepted_of_inEncodeRange ha rfl hva, onAccepted_of_inEncodeRange hb rfl hvb]

/-- R117. Of an accepted value an encode command sees the octets alone, and congruent values have the same ones. -/
theorem exec_enc_answersAlike {enc : Instr}
    (henc : (w = 8 ∧ enc = .enc8) ∨ (∃ order, w = 16 ∧ enc = .enc16 order) ∨
      (∃ order, w = 32 ∧ enc = .enc32 order))
    (hcongr : (2 ^ w : Int) ∣ valOperand s₁ a - valOperand s₂ b) :
    AnswersAlike s₁ s₂ (exec enc s₁) (exec enc s₂) := by
  have hoctet (k : Nat) (hk : k + 8 ≤ w) := octet_congr hk hcongr
  obtain ⟨rfl, rfl⟩ | ⟨order, rfl, rfl⟩ | ⟨order, rfl, rfl⟩ := henc
  · rw [exec_enc8_eq, exec_enc8_eq]
    refine onAccepted_answersAlike ha hb hva hvb ?_
    rw [hoctet 0 (by decide)]
    exact .complete _
  · rw [exec_enc16_eq, exec_enc16_eq]
    refine onAccepted_answersAlike ha hb hva hvb ?_
    rw [hoctet 8 (by decide), hoctet 0 (by decide)]
    cases place2 (octet (valOperand s₂ b) 8) (octet (valOperand s₂ b) 0) order with
    | none => exact .raise _
    | some rb => exact .complete _
  · rw [exec_enc32_eq, exec_enc32_eq]
    refine onAccepted_answersAlike ha hb hva hvb ?_
    rw [hoctet 24 (by decide), hoctet 16 (by decide), hoctet 8 (by decide), hoctet 0 (by decide)]
    exact .complete _

end

end Sys2Proof.Machine
end

section
/-! Encode and decode against each other (R116, R117). -/

namespace Sys2Proof.Machine

theorem transact_requestOfBytes (s : State) (i : Instr) (bs : List Byte) :
    transact s (requestOfBytes (encode i) bs) = exec i (s.present (requestOfBytes (encode i) bs)) :=
  transact_of_decode_ok (decode_encode i)

theorem transact_requestOfInt (s : State) (i : Instr) (v : Int) :
    transact s (requestOfInt (encode i) v) = exec i (s.present (requestOfInt (encode i) v)) :=
  transact_of_decode_ok (decode_encode i)

theorem requestOfBytes_len_toNat (w : Byte) {bs : List Byte} (h : bs.length ≤ 7) :
    (requestOfBytes w bs).len.toNat = bs.length := by
  rw [requestOfBytes, lenOfBytes_toNat, min_eq_left h]

section
variable {s : State} {bs : List Byte}

/-- DEC8 reads a byte quantity of one byte. -/
theorem transact_dec8 (hlen : bs.length = 1) (sgn : Signedness) :
    transact s (requestOfBytes (encode (.dec8 sgn)) bs) =
      answered s (.value (signInterp 8 (assemble1 (lanesOfBytes bs)) sgn)) := by
  rw [transact_requestOfBytes, signInterp_eq_patternValue (by decide) (assemble1_lt _)]
  exact exec_dec8 (State.present_req s _) ((requestOfBytes_len_toNat _ (by omega)).trans hlen) sgn

/-- DEC16 reads a byte quantity of two bytes as its order assembles it. -/
theorem transact_dec16 (hlen : bs.length = 2) {order : Endianness} {u : Nat}
    (hu : assemble2 (lanesOfBytes bs) order = some u) (sgn : Signedness) :
    transact s (requestOfBytes (encode (.dec16 order sgn)) bs) = answered s (.value (signInterp 16 u sgn)) := by
  rw [transact_requestOfBytes, signInterp_eq_patternValue (by decide) (assemble2_lt hu)]
  exact exec_dec16_of_some (State.present_req s _) ((requestOfBytes_len_toNat _ (by omega)).trans hlen) hu sgn

/-- DEC32 reads a byte quantity of four bytes as its order assembles it. -/
theorem transact_dec32 (hlen : bs.length = 4) (order : Endianness) (sgn : Signedness) :
    transact s (requestOfBytes (encode (.dec32 order sgn)) bs) =
      answered s (.value (signInterp 32 (assemble4 (lanesOfBytes bs) order) sgn)) := by
  rw [transact_requestOfBytes, signInterp_eq_patternValue (by decide) (assemble4_lt _ order)]
  exact exec_dec32 (State.present_req s _) ((requestOfBytes_len_toNat _ (by omega)).trans hlen) order sgn

end

/-- The bytes are the byte quantity of the pattern u for a pair of commands of width W. -/
structure Exchange (w : Nat) (enc dec : Instr) (sgn : Signedness) (u : Nat) (bs : List Byte) : Prop where
  /-- The pattern is one of the width. -/
  lt : u < 2 ^ w
  /-- On every block the decode command reads the bytes as the pattern. -/
  decodes : ∀ s, transact s (requestOfBytes (encode dec) bs) = answered s (.value (signInterp w u sgn))
  /-- On every block the encode command answers with the bytes for every accepted value congruent to the pattern. -/
  encodes : ∀ s rq x, s.req = some rq → valOperand s rq = x → InEncodeRange w x → (2 ^ w : Int) ∣ x - u →
    exec enc s = answered s (.bytes bs)

/-- R93, R113. A byte is the byte quantity of itself as a pattern. -/
theorem exchange8 (o : Byte) (sgn : Signedness) : Exchange 8 .enc8 (.dec8 sgn) sgn o.toNat [o] where
  lt := o.isLt
  decodes s := transact_dec8 rfl sgn
  encodes s rq x hreq hval hx hcongr := by
    rw [exec_enc8_eq, onAccepted_of_inEncodeRange hreq hval hx, octets8_iff.mpr hcongr]
    rfl

/-- R94, R114. The placed octets are the byte quantity of their pattern, under an order that places them. -/
theorem exchange16 {o1 o2 : Byte} {order : Endianness} {bs : List Byte} (h : place2 o1 o2 order = some bs)
    (sgn : Signedness) :
    Exchange 16 (.enc16 order) (.dec16 order sgn) sgn (256 * o1.toNat + o2.toNat) bs where
  lt := assemble2_lt (assemble2_lanesOfBytes_of_place2 h)
  decodes s := transact_dec16 (place2_length h) (assemble2_lanesOfBytes_of_place2 h) sgn
  encodes s rq x hreq hval hx hcongr := by
    obtain ⟨h1, h2⟩ := octets16_iff.mpr hcongr
    rw [exec_enc16_eq, onAccepted_of_inEncodeRange hreq hval hx, h1, h2, h]
    rfl

/-- R95, R115. The placed octets are the byte quantity of their pattern, under every order. -/
theorem exchange32 (o1 o2 o3 o4 : Byte) (order : Endianness) (sgn : Signedness) :
    Exchange 32 (.enc32 order) (.dec32 order sgn) sgn
      (16777216 * o1.toNat + 65536 * o2.toNat + 256 * o3.toNat + o4.toNat) (place4 o1 o2 o3 o4 order) where
  lt := assemble4_lanesOfBytes_place4 o1 o2 o3 o4 order ▸ assemble4_lt _ order
  decodes s := by rw [transact_dec32 rfl, assemble4_lanesOfBytes_place4]
  encodes s rq x hreq hval hx hcongr := by
    obtain ⟨h1, h2, h3, h4⟩ := octets32_iff.mpr hcongr
    rw [exec_enc32_eq, onAccepted_of_inEncodeRange hreq hval hx, h1, h2, h3, h4]
    rfl

/-- R92, R110. The range of either signedness lies in the encode range. -/
theorem InSignRange.inEncodeRange {w : Nat} (hw : 1 ≤ w) {sgn : Signedness} {x : Int} (h : InSignRange w sgn x) :
    InEncodeRange w x := by
  rw [inEncodeRange_iff_inSignRange hw]
  cases sgn with
  | signed => exact .inl h
  | unsigned => exact .inr h

/-- R116. The pattern of an accepted value is read as the value inside the range of the signedness, and 2^W away
elsewhere. -/
theorem signInterp_of_inEncodeRange {w u : Nat} {x : Int} {sgn : Signedness} (hw : 1 ≤ w) (hu : u < 2 ^ w)
    (hx : InEncodeRange w x) (hcongr : (2 ^ w : Int) ∣ x - u) :
    (2 ^ w : Int) ∣ signInterp w u sgn - x ∧ (signInterp w u sgn = x ↔ InSignRange w sgn x) ∧
      (signInterp w u sgn = x ∨ signInterp w u sgn = x + 2 ^ w ∨ signInterp w u sgn = x - 2 ^ w) := by
  have hrange := signInterp_inSignRange hw hu sgn
  have hdvd : (2 ^ w : Int) ∣ signInterp w u sgn - x := by
    have hsub := dvd_sub (two_pow_dvd_signInterp_sub hw hu sgn) hcongr
    rwa [sub_sub_sub_cancel_right] at hsub
  refine ⟨hdvd, ⟨fun h => h ▸ hrange, fun h => hrange.eq_of_dvd hw h hdvd⟩, ?_⟩
  obtain ⟨c, hc⟩ := hdvd
  obtain ⟨hlo, hhi⟩ := hx
  obtain ⟨hrlo, hrhi⟩ := hrange.inEncodeRange hw
  have hhalf : (2 * 2 ^ (w - 1) : Int) = 2 ^ w := mul_pow_sub_one (by omega) 2
  have hpos : (0 : Int) < 2 ^ w := by positivity
  have hclo : -2 < c := lt_of_mul_lt_mul_left (a := 2 ^ w) (by linarith) hpos.le
  have hchi : c < 2 := lt_of_mul_lt_mul_left (a := 2 ^ w) (by linarith) hpos.le
  obtain rfl | rfl | rfl : c = 0 ∨ c = 1 ∨ c = -1 := by omega
  · exact .inl (by linarith)
  · exact .inr (.inl (by linarith))
  · exact .inr (.inr (by linarith))

/-- R116, encode first. Where every value is congruent to a pattern with a byte quantity, its bytes come back as a reading
of that pattern. -/
theorem encodeThenDecode {w : Nat} {enc dec : Instr} {sgn : Signedness} (hw : 1 ≤ w)
    (h : ∀ x : Int, ∃ (u : Nat) (bs : List Byte), (2 ^ w : Int) ∣ x - u ∧ Exchange w enc dec sgn u bs) :
    EncodeThenDecode w enc dec sgn := by
  intro s s' rq x hreq hval hx
  obtain ⟨u, bs, hcongr, hex⟩ := h x
  exact ⟨bs, signInterp w u sgn, hex.encodes s rq x hreq hval hx hcongr, hex.decodes s',
    signInterp_of_inEncodeRange hw hex.lt hx hcongr⟩

/-- R116, decode first. Where all n bytes are the byte quantity of a pattern, the value they are read as is accepted and
congruent to it, so they are its bytes. -/
theorem decodeThenEncode {n w : Nat} {enc dec : Instr} {sgn : Signedness} (hw : 1 ≤ w) (hw32 : w ≤ 32)
    (h : ∀ bs : List Byte, bs.length = n → ∃ u, Exchange w enc dec sgn u bs) : DecodeThenEncode n dec enc := by
  intro s s' bs hbs
  obtain ⟨u, hex⟩ := h bs hbs
  have hrange := signInterp_inSignRange hw hex.lt sgn
  obtain ⟨hlo, hhi⟩ := hrange.mem_span32 hw32
  have hvalw := s'.cfg.ok.1
  refine ⟨_, hex.decodes s, ?_⟩
  rw [transact_requestOfInt]
  exact hex.encodes _ _ _ (State.present_req s' _)
    ((portsCarryTheirSignedValue s'.cfg.valw _ (by omega)).2.2 (fitsSigned_of_span32 hvalw hlo hhi))
    (hrange.inEncodeRange hw) (two_pow_dvd_signInterp_sub hw hex.lt sgn)

theorem encodeThenDecode8 (sgn : Signedness) : EncodeThenDecode 8 .enc8 (.dec8 sgn) sgn :=
  encodeThenDecode (by decide) fun x => ⟨_, _, octets8_iff.mp rfl, exchange8 (octet x 0) sgn⟩

theorem decodeThenEncode8 (sgn : Signedness) : DecodeThenEncode 1 (.dec8 sgn) .enc8 := by
  refine decodeThenEncode (w := 8) (sgn := sgn) (by decide) (by decide) fun bs hbs => ?_
  obtain ⟨o, rfl⟩ := List.length_eq_one_iff.mp hbs
  exact ⟨_, exchange8 o sgn⟩

theorem encodeThenDecode16 {order : Endianness} (horder : order = .bigEndian ∨ order = .littleEndian)
    (sgn : Signedness) : EncodeThenDecode 16 (.enc16 order) (.dec16 order sgn) sgn := by
  refine encodeThenDecode (by decide) fun x => ?_
  obtain ⟨bs, hbs⟩ := exists_place2_eq_some horder (octet x 8) (octet x 0)
  exact ⟨_, bs, octets16_iff.mp ⟨rfl, rfl⟩, exchange16 hbs sgn⟩

theorem decodeThenEncode16 {order : Endianness} (horder : order = .bigEndian ∨ order = .littleEndian)
    (sgn : Signedness) : DecodeThenEncode 2 (.dec16 order sgn) (.enc16 order) := by
  refine decodeThenEncode (w := 16) (sgn := sgn) (by decide) (by decide) fun bs hbs => ?_
  obtain ⟨o1, o2, hplace⟩ := exists_place2_of_length horder hbs
  exact ⟨_, exchange16 hplace sgn⟩

theorem encodeThenDecode32 (order : Endianness) (sgn : Signedness) :
    EncodeThenDecode 32 (.enc32 order) (.dec32 order sgn) sgn :=
  encodeThenDecode (by decide) fun x =>
    ⟨_, _, octets32_iff.mp ⟨rfl, rfl, rfl, rfl⟩,
      exchange32 (octet x 24) (octet x 16) (octet x 8) (octet x 0) order sgn⟩

theorem decodeThenEncode32 (order : Endianness) (sgn : Signedness) :
    DecodeThenEncode 4 (.dec32 order sgn) (.enc32 order) := by
  refine decodeThenEncode (w := 32) (sgn := sgn) (by decide) (by decide) fun bs hbs => ?_
  obtain ⟨o1, o2, o3, o4, rfl⟩ := exists_place4_of_length order hbs
  exact ⟨_, exchange32 o1 o2 o3 o4 order sgn⟩

/-- Settles O39, width by width: octets and byte quantities determine each other under every supported order. -/
theorem roundTripOfTheBinaryCodec : Obligations.RoundTripOfTheBinaryCodec := fun sgn =>
  ⟨encodeThenDecode8 sgn, decodeThenEncode8 sgn,
    fun _ horder => ⟨encodeThenDecode16 horder sgn, decodeThenEncode16 horder sgn⟩,
    fun order => ⟨encodeThenDecode32 order sgn, decodeThenEncode32 order sgn⟩⟩

/-- Settles O40: congruent values have the same octets, and octets placed LittleEndian are the reversed octets placed
BigEndian. -/
theorem encodedBytesDependOnTheResidue : Obligations.EncodedBytesDependOnTheResidue := by
  refine ⟨fun _ _ _ _ r _ _ ha hb henc hva hvb hcongr => exec_enc_answersAlike ha hb hva hvb henc hcongr r,
    fun s s' rq x hreq hval hx => ⟨place4 (octet x 24) (octet x 16) (octet x 8) (octet x 0) .littleEndian, ?_, ?_⟩⟩
  · rw [exec_enc32_eq, onAccepted_of_inEncodeRange hreq hval hx]
    rfl
  · have hreversed : place4 (octet x 24) (octet x 16) (octet x 8) (octet x 0) .littleEndian =
        place4 (octet x 0) (octet x 8) (octet x 16) (octet x 24) .bigEndian := rfl
    rw [hreversed, transact_dec32 rfl, assemble4_lanesOfBytes_place4, signInterp]
    push_cast
    simp only [octet_toNat]
    norm_num

end Sys2Proof.Machine
end

section
/-! The lookup functions over the leap-second table (R49, R132 to R134): each count is the number of indices reached, and over an
admissible table those are the indices below it. -/

namespace Sys2Proof.Machine

/-- A table scanned with positions, index by index. -/
theorem zipIdx_eq_map_range (leap : List Nat) : leap.zipIdx = (List.range leap.length).map fun i => (leap.getD i 0, i) := by
  refine List.ext_getElem (by simp) fun i hi _ => ?_
  have hi' : i < leap.length := by simpa using hi
  simp [hi']

section
variable {leap : List Nat} (hlen : leap.length = 16)
include hlen

theorem countP_zipIdx_eq_countIndices (p : Nat × Nat → Prop) [DecidablePred p] :
    leap.zipIdx.countP (fun e => decide (p e)) = countIndices fun i => p (leap.getD i 0, i) := by
  rw [zipIdx_eq_map_range, List.countP_map, hlen, countIndices, ← Nat.count_eq_card_filter_range]
  rfl

/-- R132. -/
theorem countG_eq_countIndices (tg : Int) : countG leap tg = countIndices fun i => tg ≥ 2 * leapWord leap i := by
  have hfst : leap.zipIdx.map Prod.fst = leap := by simp
  rw [countG, ← hfst, List.countP_map, hfst]
  exact countP_zipIdx_eq_countIndices hlen fun e => tg ≥ 2 * (e.1 : Int)

/-- R134. -/
theorem countU_eq_countIndices (p : Int) : countU leap p = countIndices fun i => p ≥ 2 * (leapWord leap i - i) :=
  countP_zipIdx_eq_countIndices hlen fun e => p ≥ 2 * ((e.1 : Int) - (e.2 : Int))

/-- R133. -/
theorem isTab_iff (tg : Int) : isTab leap tg = true ↔ ∃ i, i < 16 ∧ tg = 2 * leapWord leap i := by
  simp only [isTab, List.any_eq_true, decide_eq_true_eq, List.exists_mem_iff_getElem, hlen]
  refine exists_congr fun i => ?_
  rw [← exists_prop]
  exact exists_congr fun hi => by rw [leapWord_eq_getElem]

end

/-- R133. The two sides of the equality differ in parity. -/
theorem isTab_of_odd {leap : List Nat} {tg : Int} (h : tg % 2 = 1) : isTab leap tg = false := by
  simp only [isTab, List.any_eq_false, decide_eq_true_eq]
  intro l _
  omega

theorem countIndices_le (p : Nat → Prop) [DecidablePred p] : countIndices p ≤ 16 :=
  (Finset.card_filter_le _ _).trans_eq (Finset.card_range 16)

/-- A predicate that holds below every index it holds at holds exactly below the number of its indices. -/
theorem lt_countIndices_iff {p : Nat → Prop} [DecidablePred p] (hp : ∀ i j, i ≤ j → j < 16 → p j → p i) {i : Nat}
    (hi : i < 16) : i < countIndices p ↔ p i := by
  constructor
  · intro hlt
    by_contra hpi
    have hsub : (Finset.range 16).filter p ⊆ Finset.range i := by
      intro j hj
      rw [Finset.mem_filter, Finset.mem_range] at hj
      obtain ⟨hj, hpj⟩ := hj
      exact Finset.mem_range.mpr (lt_of_not_ge fun hij => hpi (hp i j hij hj hpj))
    have hle : countIndices p ≤ i := (Finset.card_le_card hsub).trans_eq (Finset.card_range i)
    omega
  · intro hpi
    have hsub : Finset.range (i + 1) ⊆ (Finset.range 16).filter p := by
      intro j hj
      rw [Finset.mem_range] at hj
      exact Finset.mem_filter.mpr ⟨Finset.mem_range.mpr (by omega), hp j i (by omega) hi hpi⟩
    exact (Finset.card_range (i + 1)).symm.trans_le (Finset.card_le_card hsub)

theorem countG_le {leap : List Nat} (hlen : leap.length = 16) (tg : Int) : countG leap tg ≤ 16 :=
  (countG_eq_countIndices hlen tg).trans_le (countIndices_le _)

theorem countU_le {leap : List Nat} (hlen : leap.length = 16) (p : Int) : countU leap p ≤ 16 :=
  (countU_eq_countIndices hlen p).trans_le (countIndices_le _)

section
variable {leap : List Nat} {romw : Nat} (hok : LeapTableOk romw leap)
include hok

/-- R24 (d) between any two entries: each step to the next adds two seconds at least. -/
theorem leapWord_add_le {i j : Nat} (hij : i ≤ j) (hj : j < 16) : leapWord leap i + 2 * (j - i) ≤ leapWord leap j := by
  obtain ⟨hlen, -, -, -, hgap⟩ := hok
  rw [leapGapped_iff hlen] at hgap
  induction j, hij using Nat.le_induction with
  | base => omega
  | succ j _ ih =>
    have hstep := hgap j (by omega)
    have hprev := ih (by omega)
    push_cast
    omega

/-- R132. The entries reached are those below the count. -/
theorem lt_countG_iff {i : Nat} (hi : i < 16) (tg : Int) : i < countG leap tg ↔ tg ≥ 2 * leapWord leap i := by
  rw [countG_eq_countIndices hok.1]
  refine lt_countIndices_iff (fun i j hij hj hp => ?_) hi
  have hle := leapWord_add_le hok hij hj
  omega

/-- R134. The same of the entries less their positions, which are one second apart at least. -/
theorem lt_countU_iff {i : Nat} (hi : i < 16) (p : Int) : i < countU leap p ↔ p ≥ 2 * (leapWord leap i - i) := by
  rw [countU_eq_countIndices hok.1]
  refine lt_countIndices_iff (p := fun i => p ≥ 2 * (leapWord leap i - i)) (fun i j hij hj hp => ?_) hi
  have hle := leapWord_add_le hok hij hj
  omega

end

/-- Settles O42: the entries ascend, so those reached are the first ones. -/
theorem countGCountsTheEntriesReached : Obligations.CountGCountsTheEntriesReached := fun _ _ tg hok =>
  ⟨countG_eq_countIndices hok.1 tg, fun _ hi => (lt_countG_iff hok hi tg).symm⟩

/-- Settles O43: the entries less their positions ascend too. -/
theorem countUAndIsTabReadTheTable : Obligations.CountUAndIsTabReadTheTable := fun _ _ p hok =>
  ⟨countU_eq_countIndices hok.1 p, fun _ hi => (lt_countU_iff hok hi p).symm, isTab_iff hok.1 p, isTab_of_odd⟩

end Sys2Proof.Machine
end

section
/-! The two time commands as functions of half-seconds (R135 to R138). A time lies strictly between two neighbouring entries, where
each command adds one constant, or on an entry. -/

namespace Sys2Proof.Machine

section
variable (leap : List Nat)

theorem gpsToUnix_eq (tg : Int) :
    gpsToUnix leap tg = tg + 631929600 - 2 * (countG leap tg : Int) + if isTab leap tg then 1 else 0 := by
  simp only [gpsToUnix, Config.gpsUnixOffset]
  split <;> omega

theorem unixToGps_even (u : Int) :
    unixToGps leap (2 * u) = 2 * u - 631929600 + 2 * (countU leap (2 * u - 631929600) : Int) := by
  simp [unixToGps, Config.gpsUnixOffset]

/-- R136. An odd operand is the leap second after the whole second below it, tabulated or not. -/
theorem unixToGps_odd (u : Int) : unixToGps leap (2 * u + 1) = unixToGps leap (2 * u) + 2 := by
  have hodd : (2 * u + 1) % 2 = 1 := by omega
  rw [unixToGps_even]
  simp [unixToGps, Config.gpsUnixOffset, hodd]

/-- R132. Half a second after a whole one no further entry is reached. -/
theorem countG_odd (g : Int) : countG leap (2 * g + 1) = countG leap (2 * g) := by
  refine List.countP_congr fun l _ => ?_
  simp only [decide_eq_true_eq]
  omega

/-- R135 (c). Half a second after a tabulated instant the result is that of the instant. -/
theorem gpsToUnix_odd (g : Int) :
    gpsToUnix leap (2 * g + 1) = gpsToUnix leap (2 * g) + if isTab leap (2 * g) then 0 else 1 := by
  have hodd : isTab leap (2 * g + 1) = false := isTab_of_odd (by omega)
  rw [gpsToUnix_eq, gpsToUnix_eq, countG_odd, if_neg (Bool.eq_false_iff.mp hodd)]
  split <;> omega

theorem countU_mono {p q : Int} (hpq : p ≤ q) : countU leap p ≤ countU leap q := by
  refine List.countP_mono_left fun e _ => ?_
  simp only [decide_eq_true_eq]
  omega

/-- R138 (e), for any table. -/
theorem unixToGps_monotone : Monotone (unixToGps leap) := by
  refine monotone_int_of_le_succ fun t => ?_
  obtain ⟨u, rfl | rfl⟩ := Int.even_or_odd' t
  · rw [unixToGps_odd]
    omega
  · have hcount := countU_mono leap (by omega : 2 * u - 631929600 ≤ 2 * (u + 1) - 631929600)
    rw [unixToGps_odd, show 2 * u + 1 + 1 = 2 * (u + 1) by ring, unixToGps_even, unixToGps_even]
    omega

end

/-- The time lies after the first k entries and before the others, and on none. -/
def BetweenEntries (leap : List Nat) (k : Nat) (tg : Int) : Prop :=
  k ≤ 16 ∧ (0 < k → 2 * leapWord leap (k - 1) < tg) ∧ (k < 16 → tg < 2 * leapWord leap k)

section
variable {leap : List Nat} {romw : Nat} (hok : LeapTableOk romw leap)
include hok

/-- The count of the entries reached, from the last one reached and the first one not reached. -/
theorem countG_eq {k : Nat} {tg : Int} (hk : k ≤ 16) (hlast : 0 < k → 2 * leapWord leap (k - 1) ≤ tg)
    (hfirst : k < 16 → tg < 2 * leapWord leap k) : countG leap tg = k := by
  have hle := countG_le hok.1 tg
  have hbelow := lt_countG_iff hok (i := k - 1) (tg := tg)
  have hat := lt_countG_iff hok (i := k) (tg := tg)
  omega

/-- The same of the entries less their positions. -/
theorem countU_eq {k : Nat} {p : Int} (hk : k ≤ 16) (hlast : 0 < k → 2 * (leapWord leap (k - 1) - (k - 1)) ≤ p)
    (hfirst : k < 16 → p < 2 * (leapWord leap k - k)) : countU leap p = k := by
  have hle := countU_le hok.1 p
  have hbelow := lt_countU_iff hok (i := k - 1) (p := p)
  have hat := lt_countU_iff hok (i := k) (p := p)
  omega

/-- Every time lies between entries or on one. -/
theorem betweenEntries_or_entry (tg : Int) :
    (∃ k, BetweenEntries leap k tg) ∨ ∃ k, k < 16 ∧ tg = 2 * leapWord leap k := by
  have hle := countG_le hok.1 tg
  have hbelow := lt_countG_iff hok (i := countG leap tg - 1) (tg := tg)
  have hat := lt_countG_iff hok (i := countG leap tg) (tg := tg)
  by_cases hentry : 0 < countG leap tg ∧ tg = 2 * leapWord leap (countG leap tg - 1)
  · exact .inr ⟨_, by omega, hentry.2⟩
  · refine .inl ⟨countG leap tg, hle, ?_⟩
    omega

theorem isTab_entry {k : Nat} (hk : k < 16) : isTab leap (2 * leapWord leap k) = true :=
  (isTab_iff hok.1 _).mpr ⟨k, hk, rfl⟩

/-- R24 (d). A second before an entry is after the entry before it. -/
theorem betweenEntries_before_entry {k : Nat} (hk : k < 16) : BetweenEntries leap k (2 * (leapWord leap k - 1)) := by
  have hgap := leapWord_add_le hok (Nat.sub_le k 1) hk
  refine ⟨hk.le, ?_⟩
  omega

/-- R24 (d). A second after an entry is before the next. -/
theorem betweenEntries_after_entry {k : Nat} (hk : k < 16) :
    BetweenEntries leap (k + 1) (2 * (leapWord leap k + 1)) := by
  have hgap := leapWord_add_le hok (Nat.le_add_right k 1)
  refine ⟨hk, ?_⟩
  simp only [Nat.add_sub_cancel]
  push_cast at hgap
  omega

/-- R135 (b). A tabulated instant. -/
theorem gpsToUnix_entry {k : Nat} (hk : k < 16) :
    gpsToUnix leap (2 * leapWord leap k) = 2 * (leapWord leap k + 315964799 - k) + 1 := by
  have hgap := leapWord_add_le hok (Nat.le_add_right k 1)
  have hcount : countG leap (2 * leapWord leap k) = k + 1 := by
    refine countG_eq hok hk ?_ ?_
    · simp
    · omega
  rw [gpsToUnix_eq, hcount, if_pos (isTab_entry hok hk)]
  push_cast
  ring

section
variable {k : Nat}

theorem BetweenEntries.isTab_eq_false {tg : Int} (h : BetweenEntries leap k tg) : isTab leap tg = false := by
  obtain ⟨hk, hafter, hbefore⟩ := h
  rw [← Bool.not_eq_true, isTab_iff hok.1]
  rintro ⟨i, hi, rfl⟩
  rcases Nat.lt_or_ge i k with hik | hki
  · have hle := leapWord_add_le hok (Nat.le_sub_one_of_lt hik) (by omega)
    omega
  · have hle := leapWord_add_le hok hki hi
    omega

/-- R135. Between entries GPS2UNIX adds the offset less the entries passed. -/
theorem BetweenEntries.gpsToUnix_eq {tg : Int} (h : BetweenEntries leap k tg) :
    gpsToUnix leap tg = tg + 631929600 - 2 * k := by
  have htab := h.isTab_eq_false hok
  obtain ⟨hk, hafter, hbefore⟩ := h
  have hcount : countG leap tg = k := countG_eq hok hk (fun hpos => (hafter hpos).le) hbefore
  simp [Machine.gpsToUnix_eq, hcount, htab]

/-- R136. UNIX2GPS takes off the offset less the entries passed, where its result lies between entries. -/
theorem BetweenEntries.unixToGps_eq {g : Int} (h : BetweenEntries leap k (2 * g)) :
    unixToGps leap (2 * (g + 315964800 - k)) = 2 * g := by
  obtain ⟨hk, hafter, hbefore⟩ := h
  have hcount : countU leap (2 * (g + 315964800 - k) - 631929600) = k := by
    refine countU_eq hok hk ?_ ?_ <;> omega
  rw [unixToGps_even, hcount]
  ring

end

/-- R136. Every whole Unix second is the result of GPS2UNIX between entries. -/
theorem exists_betweenEntries (u : Int) : ∃ k g, BetweenEntries leap k (2 * g) ∧ u = g + 315964800 - k := by
  have hle := countU_le hok.1 (2 * (u - 315964800))
  have hbelow := lt_countU_iff hok (i := countU leap (2 * (u - 315964800)) - 1) (p := 2 * (u - 315964800))
  have hat := lt_countU_iff hok (i := countU leap (2 * (u - 315964800))) (p := 2 * (u - 315964800))
  refine ⟨_, u - 315964800 + countU leap (2 * (u - 315964800)), ⟨hle, ?_⟩, ?_⟩ <;> omega

/-- R136 (b). The Unix leap second of an entry. -/
theorem unixToGps_entry {k : Nat} (hk : k < 16) :
    unixToGps leap (2 * (leapWord leap k + 315964799 - k) + 1) = 2 * leapWord leap k := by
  have hbefore := (betweenEntries_before_entry hok hk).unixToGps_eq hok
  rw [unixToGps_odd, show leapWord leap k + 315964799 - k = leapWord leap k - 1 + 315964800 - k by ring, hbefore]
  ring

/-- R138 (b). -/
theorem unixToGps_gpsToUnix (g : Int) : unixToGps leap (gpsToUnix leap (2 * g)) = 2 * g := by
  obtain ⟨k, hbetween⟩ | ⟨k, hk, hentry⟩ := betweenEntries_or_entry hok (2 * g)
  · rw [hbetween.gpsToUnix_eq hok, show 2 * g + 631929600 - 2 * (k : Int) = 2 * (g + 315964800 - k) by ring,
      hbetween.unixToGps_eq hok]
  · rw [hentry, gpsToUnix_entry hok hk, unixToGps_entry hok hk]

/-- R138 (c). -/
theorem gpsToUnix_unixToGps (u : Int) :
    gpsToUnix leap (unixToGps leap (2 * u)) = 2 * u ∧ isTab leap (unixToGps leap (2 * u)) = false := by
  obtain ⟨k, g, hbetween, rfl⟩ := exists_betweenEntries hok u
  rw [hbetween.unixToGps_eq hok]
  refine ⟨?_, hbetween.isTab_eq_false hok⟩
  rw [hbetween.gpsToUnix_eq hok]
  ring

/-- R138 (e). A second more of GPS time is half a second more into and out of a tabulated instant, and a second elsewhere. -/
theorem gpsToUnix_succ_sub (g : Int) :
    gpsToUnix leap (2 * (g + 1)) - gpsToUnix leap (2 * g) =
      if isTab leap (2 * g) = true ∨ isTab leap (2 * (g + 1)) = true then 1 else 2 := by
  obtain ⟨k, hbetween⟩ | ⟨k, hk, hentry⟩ := betweenEntries_or_entry hok (2 * g)
  · by_cases hnext : k < 16 ∧ 2 * (g + 1) = 2 * leapWord leap k
    · obtain ⟨hk, hentry⟩ := hnext
      rw [hentry, gpsToUnix_entry hok hk, hbetween.gpsToUnix_eq hok, if_pos (.inr (isTab_entry hok hk))]
      omega
    · have hsucc : BetweenEntries leap k (2 * (g + 1)) := by
        obtain ⟨hk, hafter, hbefore⟩ := hbetween
        refine ⟨hk, ?_⟩
        omega
      rw [hsucc.gpsToUnix_eq hok, hbetween.gpsToUnix_eq hok, hsucc.isTab_eq_false hok, hbetween.isTab_eq_false hok,
        if_neg (by simp)]
      ring
  · obtain rfl : g = leapWord leap k := by omega
    rw [(betweenEntries_after_entry hok hk).gpsToUnix_eq hok, gpsToUnix_entry hok hk, if_pos (.inl (isTab_entry hok hk))]
    push_cast
    ring

theorem gpsToUnix_monotone : Monotone (gpsToUnix leap) := by
  refine monotone_int_of_le_succ fun t => ?_
  obtain ⟨g, rfl | rfl⟩ := Int.even_or_odd' t
  · rw [gpsToUnix_odd]
    split <;> omega
  · have hsucc := gpsToUnix_succ_sub hok g
    rw [gpsToUnix_odd, show 2 * g + 1 + 1 = 2 * (g + 1) by ring]
    by_cases htab : isTab leap (2 * g) = true
    · rw [if_pos (.inl htab)] at hsucc
      rw [if_pos htab]
      omega
    · rw [if_neg htab]
      split at hsucc <;> omega

end

/-- Settles O45: an entry's neighbours lie between entries. -/
theorem gpsToUnixAroundALeapSecond : Obligations.GpsToUnixAroundALeapSecond := by
  intro leap romw hok
  refine ⟨?_, fun tg htg => ?_, fun g hg => ?_⟩
  · rintro k hk _ rfl
    refine ⟨?_, gpsToUnix_entry hok hk, ?_, ?_⟩
    · rw [(betweenEntries_before_entry hok hk).gpsToUnix_eq hok]
      ring
    · rw [gpsToUnix_odd, if_pos (isTab_entry hok hk), gpsToUnix_entry hok hk, add_zero]
    · rw [(betweenEntries_after_entry hok hk).gpsToUnix_eq hok]
      push_cast
      ring
  · have hbetween : BetweenEntries leap 0 tg := ⟨by decide, nofun, fun _ => htg⟩
    rw [hbetween.gpsToUnix_eq hok]
    simp
  · have hbetween : BetweenEntries leap 16 (2 * g) := ⟨le_rfl, fun _ => by simpa using hg, nofun⟩
    rw [hbetween.gpsToUnix_eq hok]
    push_cast
    ring

/-- Settles O46: the same neighbours, reached from the Unix side. -/
theorem unixToGpsAroundALeapSecond : Obligations.UnixToGpsAroundALeapSecond := by
  intro leap romw hok
  refine ⟨?_, fun u hu => ?_, fun u hu => ?_⟩
  · rintro k hk _ rfl
    refine ⟨?_, unixToGps_entry hok hk, ?_⟩
    · rw [← (betweenEntries_before_entry hok hk).unixToGps_eq hok]
      ring_nf
    · rw [← (betweenEntries_after_entry hok hk).unixToGps_eq hok]
      push_cast
      ring_nf
  · have hbetween : BetweenEntries leap 0 (2 * (u - 315964800)) := ⟨by decide, nofun, fun _ => by omega⟩
    rw [← hbetween.unixToGps_eq hok]
    simp
  · have hbetween : BetweenEntries leap 16 (2 * (u - 315964784)) := ⟨le_rfl, fun _ => by simp; omega, nofun⟩
    rw [← hbetween.unixToGps_eq hok]
    push_cast
    ring_nf

/-- Settles O47: the parts (b), (c), (e) are lemmas above, and the epoch (a) lies before the first entry, which is 1 at least. -/
theorem theTimeCommandsInvertEachOther : Obligations.TheTimeCommandsInvertEachOther := by
  intro leap romw hok
  have hepoch : BetweenEntries leap 0 (2 * 0) := by
    have hfirst := (leapStartsLate_iff hok.1).mp hok.2.2.2.1
    exact ⟨by decide, nofun, fun _ => by omega⟩
  have hgps : gpsToUnix leap 0 = 631929600 := hepoch.gpsToUnix_eq hok
  have hunix : unixToGps leap 631929600 = 0 := hepoch.unixToGps_eq hok
  exact ⟨⟨hgps, hunix⟩, unixToGps_gpsToUnix hok, gpsToUnix_unixToGps hok,
    fun _ _ hab => ⟨gpsToUnix_monotone hok hab, unixToGps_monotone leap hab⟩, gpsToUnix_succ_sub hok⟩

/-- Settles O48: past a tabulated n the half second is lost; elsewhere it makes an odd Unix time, a leap second after n. -/
theorem gridSecondsComeBackHalfASecondOff : Obligations.GridSecondsComeBackHalfASecondOff := by
  intro leap romw hok n
  have hround := unixToGps_gpsToUnix hok n
  rw [gpsToUnix_odd]
  split
  · rw [add_zero, hround]
  · rename_i htab
    have heven : gpsToUnix leap (2 * n) = 2 * (n + 315964800 - countG leap (2 * n)) := by
      rw [gpsToUnix_eq, if_neg htab]
      ring
    rw [heven] at hround ⊢
    rw [unixToGps_odd, hround]

/-- Settles O44 on the sixteen default words. -/
theorem theCountingPredicatesDiffer : Obligations.TheCountingPredicatesDiffer := by
  unfold Obligations.TheCountingPredicatesDiffer
  decide

/-- Refutes O49: from half a second past the first default entry, 46828800, the pair comes back at the entry. -/
theorem not_gridSecondsAlwaysComeBackHalfASecondUp : ¬ Obligations.GridSecondsAlwaysComeBackHalfASecondUp := by
  intro h
  have hup := h Config.defaultLeap 32 Config.default.ok.2 46828800
  have hback : unixToGps Config.defaultLeap (gpsToUnix Config.defaultLeap (2 * 46828800 + 1)) = 2 * 46828800 := by decide
  omega

end Sys2Proof.Machine
end

section
/-! The time commands on the block (R28, R70, R139): their answers and refusals, and how near a result stays to its operand. -/

namespace Sys2Proof

/-- R66. A time command has no byte order and no signedness: a finite check of the other words of its OP. -/
theorem legalWord_time_order_sgn : ∀ w : Byte,
    0x31 ≤ w.toNat ∧ w.toNat ≤ 0x37 ∨ 0x39 ≤ w.toNat ∧ w.toNat ≤ 0x3F → legalWord w = false := by
  decide

end Sys2Proof

namespace Sys2Proof.Machine

/-- A port of width 0 carries nothing but zero. -/
theorem sext_zero_width (v : Int) : sext 0 v = 0 := by
  simp [sext]

theorem transact_requestOfTime (s : State) (i : Instr) (t : Int) :
    transact s (requestOfTime (encode i) t) = exec i (s.present (requestOfTime (encode i) t)) :=
  transact_of_decode_ok (decode_encode i)

/-- The command delivers the value of the function at the time operand, where that fits the port (R135, R136). -/
def IsTimeCommand (i : Instr) (f : List Nat → Int → Int) : Prop :=
  ∀ s, exec i s = onRequest s fun rq => completeTime s (f s.cfg.leap (timeOperand s rq))

theorem isTimeCommand_gps2unix : IsTimeCommand .gps2unix gpsToUnix := fun _ => rfl

theorem isTimeCommand_unix2gps : IsTimeCommand .unix2gps unixToGps := fun _ => rfl

namespace IsTimeCommand
variable {i : Instr} {f : List Nat → Int → Int} (hi : IsTimeCommand i f) {s : State}
include hi

section
variable {rq : Request} (hreq : s.req = some rq)
include hreq

theorem exec_of_fits (hfits : FitsSigned s.cfg.timew (f s.cfg.leap (sext s.cfg.timew rq.time))) :
    exec i s = answered s (.time (f s.cfg.leap (sext s.cfg.timew rq.time))) := by
  rw [hi, onRequest_pending hreq]
  exact completeTime_fits hfits

/-- R139. It neither wraps nor saturates. -/
theorem exec_of_not_fits (hfits : ¬ FitsSigned s.cfg.timew (f s.cfg.leap (sext s.cfg.timew rq.time))) :
    exec i s = .refused .timeOutsidePort := by
  rw [hi, onRequest_pending hreq]
  exact completeTime_outside hfits

theorem not_fits_of_refused {x : Refusal} (h : exec i s = .refused x) :
    ¬ FitsSigned s.cfg.timew (f s.cfg.leap (sext s.cfg.timew rq.time)) := by
  intro hfits
  rw [hi.exec_of_fits hreq hfits] at h
  cases h

end

/-- R26, R139. A time command presented to the block: it answers exactly the value of its function, where that fits. -/
theorem transact_eq_answered_iff {t r : Int} : transact s (requestOfTime (encode i) t) = answered s (.time r) ↔
    FitsSigned s.cfg.timew r ∧ f s.cfg.leap (sext s.cfg.timew t) = r := by
  have hreq := State.present_req s (requestOfTime (encode i) t)
  rw [transact_requestOfTime]
  by_cases hfits : FitsSigned s.cfg.timew (f s.cfg.leap (sext s.cfg.timew t))
  · rw [hi.exec_of_fits hreq hfits]
    constructor
    · rintro ⟨⟩
      exact ⟨hfits, rfl⟩
    · rintro ⟨-, rfl⟩
      rfl
  · rw [hi.exec_of_not_fits hreq hfits]
    exact iff_of_false nofun fun ⟨hr, hval⟩ => hfits (hval ▸ hr)

/-- R138 (b), (c) through the block: where one command's function undoes the other's, so does its transaction. -/
theorem transact_transact {j : Instr} {g : List Nat → Int → Int} (hj : IsTimeCommand j g) {t r : Int}
    (hinv : g s.cfg.leap (f s.cfg.leap t) = t) (hzero : ¬ FitsSigned 0 (f s.cfg.leap 0)) (ht : FitsSigned s.cfg.timew t)
    (h : transact s (requestOfTime (encode i) t) = answered s (.time r)) :
    transact { s with req := none, rsp := some (.time r) } (requestOfTime (encode j) r) = answered s (.time t) := by
  obtain ⟨hr, hval⟩ := hi.transact_eq_answered_iff.mp h
  have hw : 1 ≤ s.cfg.timew := by
    rw [Nat.one_le_iff_ne_zero]
    intro hw
    rw [hw, sext_zero_width] at hval
    rw [hw, ← hval] at hr
    exact hzero hr
  have hcarry {v : Int} (hv : FitsSigned s.cfg.timew v) : sext s.cfg.timew v = v := (sext_eq_iff hw).mpr ⟨hv, by simp⟩
  rw [hcarry ht] at hval
  refine (transact_congr rfl _).trans (hj.transact_eq_answered_iff.mpr ⟨ht, ?_⟩)
  rw [hcarry hr, ← hval, hinv]

end IsTimeCommand

/-- R139. -/
theorem gpsToUnix_sub_mem {leap : List Nat} (hlen : leap.length = 16) (t : Int) :
    631929568 ≤ gpsToUnix leap t - t ∧ gpsToUnix leap t - t ≤ 631929601 := by
  have hle := countG_le hlen t
  rw [gpsToUnix_eq]
  split <;> omega

/-- R139. -/
theorem unixToGps_sub_mem {leap : List Nat} (hlen : leap.length = 16) (t : Int) :
    -631929600 ≤ unixToGps leap t - t ∧ unixToGps leap t - t ≤ -631929567 := by
  obtain ⟨u, hu⟩ := Int.even_or_odd' t
  have hle := countU_le hlen (2 * u - 631929600)
  obtain rfl | rfl := hu
  · rw [unixToGps_even]
    omega
  · rw [unixToGps_odd, unixToGps_even]
    omega

/-- Settles O7: the command's function is the count and the equality test of the input. -/
theorem gps2UnixCommand : Obligations.Gps2UnixCommand := by
  refine ⟨decode_encode .gps2unix,
    fun s rq hreq hlo hhi => step_of_illegalWord hreq (legalWord_time_order_sgn rq.cmd (.inl ⟨hlo, hhi⟩)), ?_⟩
  rintro s rq _ _ hreq rfl rfl
  rw [← countG_eq_countIndices s.cfg.ok.2.1, ← isTab_iff s.cfg.ok.2.1]
  have hexec := isTimeCommand_gps2unix.exec_of_fits hreq
  rw [gpsToUnix_eq] at hexec
  constructor
  · intro htab
    rwa [if_pos htab] at hexec
  · intro htab
    rwa [if_neg htab, add_zero] at hexec

/-- Settles O8: an odd operand is the even one below it and a leap second more. -/
theorem unix2GpsCommand : Obligations.Unix2GpsCommand := by
  refine ⟨decode_encode .unix2gps,
    fun s rq hreq hlo hhi => step_of_illegalWord hreq (legalWord_time_order_sgn rq.cmd (.inr ⟨hlo, hhi⟩)), ?_⟩
  rintro s rq n isLeap _ _ hreq hleap htime rfl rfl
  rw [← countU_eq_countIndices s.cfg.ok.2.1]
  have hval : unixToGps s.cfg.leap (2 * n + isLeap) =
      2 * n - 631929600 + 2 * (countU s.cfg.leap (2 * n - 631929600) : Int) + 2 * isLeap := by
    obtain rfl | rfl := hleap
    · rw [add_zero, unixToGps_even, mul_zero, add_zero]
    · rw [unixToGps_odd, unixToGps_even, mul_one]
  have hexec := isTimeCommand_unix2gps.exec_of_fits hreq
  rw [htime, hval] at hexec
  exact fun hfits => ⟨hexec hfits, by omega⟩

/-- R139. The pending request of a time command whose result does not fit the port is refused. -/
theorem step_of_not_inDomain {s : State} {rq : Request} (hreq : s.req = some rq) (hdom : ¬ rq.InDomain s.cfg) :
    step s = .refused .timeOutsidePort := by
  rcases not_and_or.mp hdom with h | h
  · obtain ⟨hdec, hfits⟩ := Classical.not_imp.mp h
    rw [step_of_decode_ok hreq hdec]
    exact isTimeCommand_gps2unix.exec_of_not_fits hreq hfits
  · obtain ⟨hdec, hfits⟩ := Classical.not_imp.mp h
    rw [step_of_decode_ok hreq hdec]
    exact isTimeCommand_unix2gps.exec_of_not_fits hreq hfits

/-- Settles O26: with no request the block idles, and a request in the domain is answered. -/
theorem onlyATimeOutsideThePortIsRefused : Obligations.OnlyATimeOutsideThePortIsRefused := by
  refine ⟨fun s x h => ?_, fun s rq => step_of_not_inDomain, fun s => nofun⟩
  cases hreq : s.req with
  | none =>
    rw [idleStepDoesNothing s hreq] at h
    cases h
  | some rq =>
    have hdom : ¬ rq.InDomain s.cfg := by
      intro hdom
      obtain ⟨r, hr⟩ := step_completes hreq hdom
      rw [hr] at h
      cases h
    rw [step_of_not_inDomain hreq hdom] at h
    cases h
    exact ⟨rfl, rq, rfl, hdom⟩

/-- Settles O50: each time command's function undoes the other's on whole seconds, and a port that carries a result is not of
width 0. -/
theorem timeRoundTripThroughTheBlock : Obligations.TimeRoundTripThroughTheBlock := by
  intro s n r ht
  have hok := s.cfg.ok.2
  refine ⟨isTimeCommand_gps2unix.transact_transact isTimeCommand_unix2gps (unixToGps_gpsToUnix hok n) ?_ ht,
    isTimeCommand_unix2gps.transact_transact isTimeCommand_gps2unix (gpsToUnix_unixToGps hok n).1 ?_ ht⟩
  · have hfar := gpsToUnix_sub_mem hok.1 0
    intro hfits
    omega
  · have hfar := unixToGps_sub_mem hok.1 0
    intro hfits
    omega

/-- Settles O51: each result is the operand plus or less the offset and 16 seconds at most, so one past an end of the port comes
from an operand near that end. -/
theorem timeResultsStayNearTheOperand : Obligations.TimeResultsStayNearTheOperand := by
  refine ⟨fun leap t hlen => ?_,
    fun s rq hreq => ⟨isTimeCommand_gps2unix.exec_of_not_fits hreq, isTimeCommand_unix2gps.exec_of_not_fits hreq⟩,
    fun s rq hreq htimew hrefused => ?_⟩
  · have hgps := gpsToUnix_sub_mem hlen t
    have hunix := unixToGps_sub_mem hlen t
    rw [abs_le, abs_le]
    omega
  · have hgps := gpsToUnix_sub_mem s.cfg.ok.2.1 (sext 64 rq.time)
    have hunix := unixToGps_sub_mem s.cfg.ok.2.1 (sext 64 rq.time)
    obtain h | h := hrefused
    · have hfits := isTimeCommand_gps2unix.not_fits_of_refused hreq h
      rw [htimew] at hfits
      omega
    · have hfits := isTimeCommand_unix2gps.not_fits_of_refused hreq h
      rw [htimew] at hfits
      omega

end Sys2Proof.Machine
end

section
/-! Which command answers which error, and when (R154, R159): the error of each command as a function of its operands, and each
shared operation's part in it. -/

namespace Sys2Proof.Machine

/-- R157. The error of a two-byte command with nothing else wrong: the Mid orders have no pattern and no placement (R44). -/
def orderError : Endianness → Option ErrorStatus
  | .bigEndian | .littleEndian => none
  | .midBigEndian | .midLittleEndian => some .unsupportedEndianness

/-- R154, R159. The error a command answers on `len` bytes and the integer `v`, if any: the length or the range is checked before
the byte order. -/
def errorOf (len : Nat) (v : Int) : Instr → Option ErrorStatus
  | .dec8 _ => if len ≠ 1 then some .invalidLength else none
  | .dec16 order _ => if len ≠ 2 then some .invalidLength else orderError order
  | .dec32 _ _ => if len ≠ 4 then some .invalidLength else none
  | .enc8 => if v < -128 ∨ 255 < v then some .outOfRange else none
  | .enc16 order => if v < -32768 ∨ 65535 < v then some .outOfRange else orderError order
  | .enc32 _ => if v < -2147483648 ∨ 4294967295 < v then some .outOfRange else none
  | .gps2unix | .unix2gps => none

/-- The answer completes with the error `o` and no other; with none, it completes with no error. -/
def ErrorIs (s : State) (a : Answer) (o : Option ErrorStatus) : Prop :=
  ∀ e, a = answered s (.error e) ↔ o = some e

namespace ErrorIs
variable {s : State}

theorem complete {r : Response} (hr : ∀ e, r ≠ .error e) : ErrorIs s (complete s r) none :=
  fun e => complete_eq_answered.trans (iff_of_false (hr e) nofun)

theorem raise (e : ErrorStatus) : ErrorIs s (raise s e) (some e) :=
  fun e' => raise_eq_answered.trans (by rw [Response.error.injEq, Option.some.injEq])

theorem ite {c : Prop} [Decidable c] {a b : Answer} {o p : Option ErrorStatus} (ha : ErrorIs s a o) (hb : ErrorIs s b p) :
    ErrorIs s (if c then a else b) (if c then o else p) := by
  split
  · exact ha
  · exact hb

/-- R139. A time result that does not fit its port is no error: the request is refused. -/
theorem completeTime (t : Int) : ErrorIs s (completeTime s t) none := by
  unfold Machine.completeTime
  split
  · exact complete nofun
  · exact fun e => iff_of_false nofun nofun

section
variable {rq : Request} (hreq : s.req = some rq)
include hreq

theorem onRequest {run : Request → Answer} {o : Option ErrorStatus} (hrun : ErrorIs s (run rq) o) :
    ErrorIs s (onRequest s run) o := by
  rwa [onRequest_pending hreq]

/-- R156. The range check of an encode command, `c` the complement of its range written out. -/
theorem onAccepted {w : Nat} {c : Prop} [Decidable c] {run : Int → Answer} {o : Option ErrorStatus}
    (hc : ¬ InEncodeRange w (valOperand s rq) ↔ c) (hrun : ErrorIs s (run (valOperand s rq)) o) :
    ErrorIs s (onAccepted w s run) (if c then some .outOfRange else o) := by
  split
  · rw [onAccepted_of_not_inEncodeRange hreq rfl (hc.mpr ‹_›)]
    exact raise _
  · rwa [onAccepted_of_inEncodeRange hreq rfl (not_not.mp (mt hc.mp ‹_›))]

end

end ErrorIs

/-- R154. Every command answers the error of its operands and no other. -/
theorem exec_errorIs {s : State} {rq : Request} (hreq : s.req = some rq) (i : Instr) :
    ErrorIs s (exec i s) (errorOf rq.len.toNat (valOperand s rq) i) := by
  cases i with
  | dec8 | dec32 => exact .onRequest hreq (.ite (.raise _) (.complete nofun))
  | dec16 order sgn =>
    refine .onRequest hreq (.ite (.raise _) ?_)
    cases order with
    | bigEndian | littleEndian => exact .complete nofun
    | midBigEndian | midLittleEndian => exact .raise _
  | enc8 =>
    rw [exec_enc8_eq]
    exact .onAccepted hreq (by omega) (.complete nofun)
  | enc16 order =>
    rw [exec_enc16_eq]
    refine .onAccepted hreq (by omega) ?_
    cases order with
    | bigEndian | littleEndian => exact .complete nofun
    | midBigEndian | midLittleEndian => exact .raise _
  | enc32 order =>
    rw [exec_enc32_eq]
    exact .onAccepted hreq (by omega) (.complete nofun)
  | gps2unix | unix2gps => exact .onRequest hreq (.completeTime _)

@[simp] theorem orderError_eq_some {order : Endianness} {e : ErrorStatus} :
    orderError order = some e ↔
      e = .unsupportedEndianness ∧ (order = .midBigEndian ∨ order = .midLittleEndian) := by
  cases order <;> simp [orderError, eq_comm]

section
variable {len : Nat} {v : Int} {i : Instr}

/-- R155. Only the decode commands look at the length. -/
theorem errorOf_eq_invalidLength : errorOf len v i = some .invalidLength ↔
    (∃ sgn, i = .dec8 sgn ∧ len ≠ 1) ∨ (∃ order sgn, i = .dec16 order sgn ∧ len ≠ 2) ∨
      (∃ order sgn, i = .dec32 order sgn ∧ len ≠ 4) := by
  cases i with
  | dec8 | dec16 | dec32 => simp [errorOf]
  | enc8 | enc16 | enc32 | gps2unix | unix2gps => simp [errorOf, ite_eq_iff]

/-- R156. Only the encode commands look at the integer. -/
theorem errorOf_eq_outOfRange : errorOf len v i = some .outOfRange ↔
    (i = .enc8 ∧ (v < -128 ∨ 255 < v)) ∨ (∃ order, i = .enc16 order ∧ (v < -32768 ∨ 65535 < v)) ∨
      (∃ order, i = .enc32 order ∧ (v < -2147483648 ∨ 4294967295 < v)) := by
  cases i with
  | enc8 | enc16 | enc32 => simp [errorOf, imp_iff_not_or]
  | dec8 | dec16 | dec32 | gps2unix | unix2gps => simp [errorOf, ite_eq_iff]

/-- R157. Only the two-byte commands look at the order, after the length or the range (R159). -/
theorem errorOf_eq_unsupportedEndianness : errorOf len v i = some .unsupportedEndianness ↔
    ∃ order, (order = .midBigEndian ∨ order = .midLittleEndian) ∧
      ((∃ sgn, i = .dec16 order sgn ∧ len = 2) ∨ (i = .enc16 order ∧ -32768 ≤ v ∧ v ≤ 65535)) := by
  cases i with
  | dec16 | enc16 => simp [errorOf, ite_eq_iff, and_comm, ← or_and_right]
  | dec8 | dec32 | enc8 | enc32 | gps2unix | unix2gps => simp [errorOf]

/-- R151. An illegal command is a matter of the word, before any command runs. -/
theorem errorOf_ne_illegalCommand : errorOf len v i ≠ some .illegalCommand := by
  cases i with
  | dec16 | enc16 => simp [errorOf, ite_eq_iff]
  | dec8 | dec32 | enc8 | enc32 | gps2unix | unix2gps => simp [errorOf]

end

/-- Settles O22: a command answers the error of its operands, whose table is read error by error. -/
theorem eachErrorHasExactlyItsCause : Obligations.EachErrorHasExactlyItsCause := by
  rintro s rq _ i hreq rfl
  have herr := exec_errorIs hreq i
  exact ⟨(herr .invalidLength).trans errorOf_eq_invalidLength, (herr .outOfRange).trans errorOf_eq_outOfRange,
    (herr .unsupportedEndianness).trans errorOf_eq_unsupportedEndianness,
    mt (herr .illegalCommand).mp errorOf_ne_illegalCommand, exec_completes_of_byteCount_ne_zero hreq⟩

end Sys2Proof.Machine
end

section
/-! The answer to one request and a run of them (R184, R191): the response a block of some constants gives a request, and what
`serve` makes of a list of requests in the host's domain. -/

namespace Sys2Proof.Machine

/-- Settles O25: a request in the host's domain completes its transaction. -/
theorem everyRequestInDomainIsAnswered : Obligations.EveryRequestInDomainIsAnswered :=
  fun _ _ => step_completes

/-- R20, R26. The response of a block with these constants to a request, presented with nothing pending and no response before it.
The value where the block gives none is of no account: the host does not present such a request. -/
def responseTo (c : Config) (rq : Request) : Response :=
  match transact { cfg := c, req := none, rsp := none } rq with
  | .next t => t.rsp.getD (.error .illegalCommand)
  | .fault _ | .refused _ => .error .illegalCommand

section
variable {s : State} {rq : Request}

theorem responseTo_of_transact {r : Response} (h : transact s rq = answered s r) : responseTo s.cfg rq = r := by
  have hrest : transact { cfg := s.cfg, req := none, rsp := none } rq = answered s r := (transact_congr rfl rq).trans h
  simp only [responseTo, hrest, Option.getD_some]

/-- R26, R184. A transaction in the host's domain gives the response of the constants and the request. -/
theorem transact_eq_respond_responseTo (hdom : rq.InDomain s.cfg) :
    transact s rq = .next (s.respond (responseTo s.cfg rq)) := by
  obtain ⟨r, hr⟩ := transact_completes hdom
  rw [responseTo_of_transact hr]
  exact hr

/-- R191. A run ends with an idle step. -/
theorem serve_nil (hreq : s.req = none) : serve s [] = some ([], s.idle) := by
  simp only [serve, idleStepDoesNothing s hreq, State.idle, hreq]

/-- R191. A run goes on from the state its first transaction leaves. -/
theorem serve_cons {r : Response} {rqs : List Request} {rs : List Response} {u : State}
    (hfirst : transact s rq = .next (s.respond r)) (hrest : serve (s.respond r) rqs = some (rs, u)) :
    serve s (rq :: rqs) = some (r :: rs, u) := by
  simp only [serve, hfirst, hrest, State.respond_rsp]

end

theorem State.idle_respond {s : State} (hreq : s.req = none) (r : Response) : (s.respond r).idle = s.idle := by
  rw [idle, idle, respond, hreq]

theorem State.idle_eq_self {s : State} (hrsp : s.rsp = none) : s.idle = s := by
  rw [idle, ← hrsp]

/-- R20, R191. From any state with nothing pending, whatever it last answered, a run gives each request its response and keeps no
record. -/
theorem serve_eq_map_responseTo (rqs : List Request) {s : State} (hreq : s.req = none)
    (hdom : ∀ rq ∈ rqs, rq.InDomain s.cfg) : serve s rqs = some (rqs.map (responseTo s.cfg), s.idle) := by
  induction rqs generalizing s with
  | nil => exact serve_nil hreq
  | cons rq rqs ih =>
    obtain ⟨hfirst, hrest⟩ := List.forall_mem_cons.mp hdom
    have hrun := ih (State.respond_req s (responseTo s.cfg rq)) hrest
    rw [State.idle_respond hreq] at hrun
    exact serve_cons (transact_eq_respond_responseTo hfirst) hrun

/-- Settles O30: the function is the response of the constants to the request, and an idle step changes nothing where there was no
response. -/
theorem runsAnswerEachRequestAndEndWhereTheyStart : Obligations.RunsAnswerEachRequestAndEndWhereTheyStart := by
  refine ⟨responseTo, fun s rqs hreq hrsp hdom => ?_⟩
  rw [serve_eq_map_responseTo rqs hreq hdom, State.idle_eq_self hrsp]

end Sys2Proof.Machine
end
